-- ==== Sys2Proof/Word.lean ====
section
/-! DEFINITION. The words of the CC-LINK codec block: a byte is 8 bits (R10), a scalar field is 32 bits (R76), a byte string is a
finite sequence of bytes, first byte at offset 0 (R10). -/

namespace Sys2Proof

/-- A byte, 8 bits (R10). -/
abbrev Byte := BitVec 8

/-- A 32-bit unsigned number (R76). -/
abbrev Word32 := BitVec 32

/-- A byte string (R10). -/
abbrev Bytes := List Byte

end Sys2Proof
end

