-- ==== Sys2Proof/Machine/Parameters.lean ====
section
/-! DEFINITION. The wire parameters of R8 and R218 that are more than a number: the byte order, the CRC parameter set (R120), the
base64 code (R69, R96), with the value the spec takes for each. -/

namespace Sys2Proof

/-- `BYTE_ORDER`, the order of the bytes of a 32-bit field. The spec takes "little-endian, fixed" (R8), "Not switchable" (D3), so
the type has that value alone. -/
inductive ByteOrder where
  | littleEndian
  deriving DecidableEq, Repr

/-- The CRC parameter record of R120. `polyReflected` is the polynomial bit-reversed, as R121 uses it. The working register is
kept in R121's orientation (bit 0 leaves first); `reflectIn` and `reflectOut` say that the input bytes and the final register are
used as they stand, and when one is false that side is bit-reversed first. -/
structure CrcParams where
  polyReflected : Word32
  init : Word32
  reflectIn : Bool
  reflectOut : Bool
  xorOut : Word32
  deriving DecidableEq, Repr

/-- CRC-32/ISO-HDLC, the parameter set the spec takes (R120, decision D4). -/
def CrcParams.isoHdlc : CrcParams :=
  { polyReflected := 0xEDB88320, init := 0xFFFFFFFF, reflectIn := true, reflectOut := true, xorOut := 0xFFFFFFFF }

/-- The base64 code of a build. -/
structure Base64Params where
  /-- `B64_ALPHABET`, the 64 characters by index (R8, R69) -/
  alphabet : Bytes
  /-- `B64_PAD`, the pad character (R8, R69) -/
  pad : Byte
  /-- `B64DEC_NC`, the number of the build's function among all total functions from text to bytes (R8, R96): plain data that
  names an open function, `Config.b64decNcRaw` (log 3) -/
  decNc : Nat
  deriving DecidableEq, Repr

/-- 64 different characters, a pad that is none of them, and neither 0x00 nor 0x04 among the 65: the source says of the alphabet
that it "excludes both" (R8, R69). -/
def Base64Params.wf (p : Base64Params) : Bool :=
  decide (p.alphabet.length = 64 ∧ p.alphabet.Nodup ∧ p.pad ∉ p.alphabet ∧
    (0x00 : Byte) ∉ p.pad :: p.alphabet ∧ (0x04 : Byte) ∉ p.pad :: p.alphabet)

/-- The table of R69, one line for each of its columns: the standard alphabet of RFC 4648 section 4. -/
def rfc4648Alphabet : Bytes :=
  [0x41, 0x42, 0x43, 0x44, 0x45, 0x46, 0x47, 0x48, 0x49, 0x4A, 0x4B, 0x4C, 0x4D, 0x4E, 0x4F, 0x50] ++
  [0x51, 0x52, 0x53, 0x54, 0x55, 0x56, 0x57, 0x58, 0x59, 0x5A, 0x61, 0x62, 0x63, 0x64, 0x65, 0x66] ++
  [0x67, 0x68, 0x69, 0x6A, 0x6B, 0x6C, 0x6D, 0x6E, 0x6F, 0x70, 0x71, 0x72, 0x73, 0x74, 0x75, 0x76] ++
  [0x77, 0x78, 0x79, 0x7A, 0x30, 0x31, 0x32, 0x33, 0x34, 0x35, 0x36, 0x37, 0x38, 0x39, 0x2B, 0x2F]

/-- The base64 code the spec takes: the RFC 4648 alphabet and the pad `=` (R69, decision D5), and function number 0 for
`B64DEC_NC`, of which nothing is known either (DESIGN CHOICE, log 3). -/
def Base64Params.rfc4648 : Base64Params := { alphabet := rfc4648Alphabet, pad := 0x3D, decNc := 0 }

end Sys2Proof
end

