-- ==== Sys2Proof/Config.lean ====
section
/-! DEFINITION. The configuration record of R8, and the free values: what the spec leaves open and nothing in Lean can evaluate. -/

namespace Sys2Proof

/-- The configuration record of R8: what a build fixes, one field for each of its parameters but `RAW_CAP`, which R8 gives as a
function of `RX_CAP` (`Config.rawCap`). The HOST's constants stand beside the block's. Machine.State holds one, so that a claim
about every state is a claim about every build. -/
structure Config where
  /-- `RX_CAP`, the capacity of the accumulation buffer (R8, D7). -/
  rxCap : Nat
  /-- `LEN_MAX`, the largest length of a byte-string operand (R8, R42, D8). OPEN: `none` takes it as unbounded. -/
  lenMax : Option Nat
  /-- `BYTE_ORDER` (R8, R43, D3). -/
  byteOrder : ByteOrder
  /-- `CRC`, the parameter set of the checksum (R8, R120, D4). -/
  crc : CrcParams
  /-- `B64_ALPHABET`, `B64_PAD` and `B64DEC_NC` (R8, R69, R96, D5, D6). -/
  b64 : Base64Params
  /-- `TIMEOUT_W`, the width of the two's complement `timeout` operand (R8, R76, D12). -/
  timeoutW : Nat
  /-- `CLOCK_W`, the width of the millisecond CLOCK, which wraps (R8, R183, D13). -/
  clockW : Nat
  /-- `ACK_TIMEOUT_MS`, the HOST's wait for an acknowledgement (R8, D29). -/
  ackTimeoutMs : Nat
  /-- `MSG_MAX`, the HOST's string buffer bound (R8, R156, D29). -/
  msgMax : Nat
  /-- `OVERFLOW_SENTINEL`, the HOST's return value for an oversized message (R8, R161, D29). -/
  overflowSentinel : Int
  /-- `DATA_ACK_FIELD`, the `ack_number` of the HOST's data segments. OPEN, "any 32-bit value, possibly different per segment" (R8,
  R159, D28): `some v` puts `v` in every one, `none` leaves it to each call. -/
  dataAckField : Option Word32
  deriving DecidableEq, Repr

/-- The values R8 takes; where R8 says OPEN, `LEN_MAX` is unbounded, `DATA_ACK_FIELD` is left to each call, and `B64DEC_NC` is a
function nothing is known of (DESIGN CHOICE, logs 2 and 3). -/
def Config.default : Config :=
  { rxCap := 64, lenMax := none, byteOrder := .littleEndian, crc := .isoHdlc, b64 := .rfc4648, timeoutW := 32, clockW := 32,
    ackTimeoutMs := 100, msgMax := 64, overflowSentinel := -1, dataAckField := none }

/-- `RAW_CAP`, the largest payload a received packet can decode to: `floor(3 * RX_CAP / 4)` (R8, R97, D7). -/
def Config.rawCap (c : Config) : Nat := 3 * c.rxCap / 4

/-- A number is a `TIMEOUT_W`-bit two's complement value (R8, R76). -/
def Config.fitsTimeout (c : Config) (v : Int) : Bool :=
  decide (0 < c.timeoutW ∧ -((2 ^ (c.timeoutW - 1) : Nat) : Int) ≤ v ∧ v < ((2 ^ (c.timeoutW - 1) : Nat) : Int))

/-- A legal build. `RX_CAP` is 4 or more (R8) and the index fits the 14 bits of the STATUS view (R141); the base64 code is one (R69);
a `timeout` has a sign, and "the elapsed time never comes near a second wrap" of the CLOCK (R183); `ACK_TIMEOUT_MS` is a `timeout`
(R151); the sentinel is negative (R8). `LEN_MAX` is not tied to `RX_CAP`: the spec relates the two nowhere, and a build whose
`LEN_MAX` is below `RX_CAP` is legal here (DESIGN CHOICE, log 24). -/
def Config.wf (c : Config) : Bool :=
  decide (4 ≤ c.rxCap ∧ c.rxCap < 2 ^ 14) && c.b64.wf && decide (0 < c.timeoutW ∧ c.timeoutW ≤ c.clockW) &&
    c.fitsTimeout c.ackTimeoutMs && decide (c.overflowSentinel < 0)

/-- A length is within `LEN_MAX` (R42). -/
def Config.fits (c : Config) (n : Nat) : Bool :=
  match c.lenMax with
  | none => true
  | some m => decide (n ≤ m)

/-- The fields of a Segment record beside `checksum_valid` (R27, R132). -/
structure SegFields where
  isAck : Bool
  sequenceNumber : Word32
  ackNumber : Word32
  data : Bytes
  dataLen : Nat
  deriving DecidableEq, Repr, Inhabited

/-- What the agents outside the block do during one step (R184: a sequence of incoming bytes with the moments they become
available, a sink that accepts bytes, possibly never, and a clock), and how a running PKT_RECV is scheduled against them (R109,
D13): DESIGN CHOICE, log 5. -/
structure Turn where
  /-- bytes that reach the BYTE SOURCE, oldest first -/
  arrivals : Bytes
  /-- milliseconds by which the CLOCK advances (R183) -/
  elapsed : Nat
  /-- how many more bytes the BYTE SINK is able to accept -/
  sinkRoom : Nat
  /-- how many times a running PKT_RECV polls the BYTE SOURCE -/
  polls : Nat
  /-- whether a running PKT_RECV then tests the CLOCK -/
  testsClock : Bool
  /-- whether power goes off and on again in this turn (R200, R202) -/
  powersOn : Bool
  deriving DecidableEq, Repr, Inhabited

/-- The turn in which nothing happens outside the block and nothing is polled. -/
def Turn.quiet : Turn := { arrivals := [], elapsed := 0, sinkRoom := 0, polls := 0, testsClock := false, powersOn := false }

/-- FREE VALUE (log 3). What the decoder returns for text the encoder cannot produce: for each number of `Base64Params.decNc`, a
function of the text alone (R96 (a)). -/
opaque Config.b64decNcRaw : Nat → Bytes → Bytes

/-- FREE VALUE (log 4). The fields of a segment whose check failed, one draw for each number (R134). -/
opaque Config.anySegment : Nat → SegFields

/-- FREE VALUE (log 5). What the outside does in a step for which the agenda names no turn, one draw for each number (R109, R184). -/
opaque Config.freeTurn : Nat → Turn

end Sys2Proof
end

