-- ==== Sys2Proof/Syntax.lean ====
section
/-! DEFINITION. The instructions, one constructor for each row of spec/opcode_table.json, and the raw forms they are decoded from:
a CMD, which is the pair of a 4-bit code and typed operands (R74), and a received byte (R62). -/

namespace Sys2Proof

/-- One constructor for each row of spec/opcode_table.json: the ten operations of R75, the reserved codes of R142, and the three
classes of a received byte (R62), each of which is one parser step (R101). -/
inductive Instr where
  /-- 0x1 B64ENC bytes (R91) -/
  | b64enc (bytes : Bytes)
  /-- 0x2 B64DEC text (R94, R96) -/
  | b64dec (text : Bytes)
  /-- 0x3 PKT_SEND bytes (R108) -/
  | pktSend (bytes : Bytes)
  /-- 0x4 PKT_RECV timeout, milliseconds, negative for no bound (R109) -/
  | pktRecv (timeout : Int)
  /-- 0x5 CRC32 bytes (R121) -/
  | crc32 (bytes : Bytes)
  /-- 0x6 CRC_CHECK bytes (R123) -/
  | crcCheck (bytes : Bytes)
  /-- 0x7 SEG_ENC is_ack, sequence_number, ack_number, data (R131) -/
  | segEnc (isAck : Bool) (sequenceNumber ackNumber : Word32) (data : Bytes)
  /-- 0x8 SEG_DEC bytes (R132) -/
  | segDec (bytes : Bytes)
  /-- 0x9 RESET (R140) -/
  | reset
  /-- 0xA STATUS (R141) -/
  | status
  /-- 0x0, reserved (R142) -/
  | reserved0
  /-- 0xB, reserved (R142) -/
  | reservedB
  /-- 0xC to 0xF, reserved; `low` is the code's low two bits (R142) -/
  | reservedCF (low : BitVec 2)
  /-- received byte 0x00 (R62, R103) -/
  | rxStart
  /-- received byte 0x04 (R62, R104) -/
  | rxEnd
  /-- any other received byte (R62, R105) -/
  | rxData (b : Byte)
  deriving DecidableEq, Repr

/-- A raw operand of a CMD, by its type (R76). A `timeout` is the number its `TIMEOUT_W` two's complement bits stand for; a byte
string is the pair (length, bytes) (R74). -/
inductive Arg where
  | bit (b : Bool)
  | word (v : Word32)
  | timeout (ms : Int)
  | str (len : Nat) (bytes : Bytes)
  deriving DecidableEq, Repr

/-- A CMD as the HOST presents it: "the pair (code, operands)" (R74). -/
structure RawCmd where
  code : BitVec 4
  args : List Arg
  deriving DecidableEq, Repr

/-- What the block decodes: a CMD of the HOST (R74) or a byte taken from the BYTE SOURCE (R62). -/
inductive Raw where
  | cmd (c : RawCmd)
  | rx (b : Byte)
  deriving DecidableEq, Repr

/-- Why a raw form is no instruction. Only a CMD can fail to decode: every byte value has a class (R62). -/
inductive DecodeError where
  /-- the operands are not of the number and types R75 and R76 give the code -/
  | operandShape
  /-- a `timeout` that has no `TIMEOUT_W`-bit two's complement form (R76) -/
  | timeoutTooWide
  /-- a byte-string operand whose length field is not the number of its bytes (R74) -/
  | lengthMismatch
  /-- a byte-string operand longer than LEN_MAX, which "cannot be expressed" (R42) -/
  | operandTooLong
  /-- an operation whose result would be longer than LEN_MAX, which "is outside the spec" (R42) -/
  | resultTooLong
  deriving DecidableEq, Repr

end Sys2Proof
end

