-- ==== Sys2Proof/WellFormed.lean ====
section
/-! DEFINITION. Which terms of Instr are instructions of the block: the operand ranges of R42 and R76 and the byte class of R62. -/

namespace Sys2Proof

/-- The length of the base64 text of an `n`-byte string, `4 * ceil(n / 3)` (R71). -/
def b64Length (n : Nat) : Nat := 4 * ((n + 2) / 3)

/-- The length of the segment of `n` data bytes, `13 + n` (R63). -/
def segLength (n : Nat) : Nat := 13 + n

/-- Operands within LEN_MAX and results within LEN_MAX (R42, R76); a `timeout` of TIMEOUT_W bits (R76); a DATA byte is neither START
nor END (R62). -/
def Instr.wf (c : Config) : Instr → Bool
  | .b64enc bytes => c.fits bytes.length && c.fits (b64Length bytes.length)
  | .b64dec text => c.fits text.length
  | .pktSend bytes => c.fits bytes.length && c.fits (b64Length bytes.length)
  | .pktRecv timeout => c.fitsTimeout timeout
  | .crc32 bytes => c.fits bytes.length
  | .crcCheck bytes => c.fits bytes.length
  | .segEnc _ _ _ data => c.fits data.length && c.fits (segLength data.length)
  | .segDec bytes => c.fits bytes.length
  | .reset => true
  | .status => true
  | .reserved0 => true
  | .reservedB => true
  | .reservedCF _ => true
  | .rxStart => true
  | .rxEnd => true
  | .rxData b => b != 0x00 && b != 0x04

end Sys2Proof
end

