-- ==== Sys2Proof/Decode.lean ====
section
/-! DEFINITION. Decoding a CMD by its 4-bit code (R75) and a received byte by its value (R62), and the encoder back. Total: a
CMD that is no instruction is rejected by the name of what is wrong with it. -/

namespace Sys2Proof

/-- The START byte (R61, R62). -/
def startByte : Byte := 0x00

/-- The END byte (R61, R62). -/
def endByte : Byte := 0x04

/-- The class of a received byte, by its value alone; RX_START and RX_END are tried before RX_DATA (R62). -/
def classify (b : Byte) : Instr :=
  if b = startByte then .rxStart else if b = endByte then .rxEnd else .rxData b

/-- The one operand of an operation on a byte string: the pair (length, bytes) (R74), its length and the length of the
operation's result within LEN_MAX (R42). -/
def withString (c : Config) (resultLength : Nat → Nat) (mk : Bytes → Instr) : List Arg → Except DecodeError Instr
  | [.str len bytes] =>
    if len ≠ bytes.length then .error .lengthMismatch
    else if c.fits len = false then .error .operandTooLong
    else if c.fits (resultLength len) = false then .error .resultTooLong
    else .ok (mk bytes)
  | _ => .error .operandShape

/-- The four operands of SEG_ENC (R75, R131). -/
def withSegment (c : Config) : List Arg → Except DecodeError Instr
  | [.bit isAck, .word sequenceNumber, .word ackNumber, .str len data] =>
    withString c segLength (.segEnc isAck sequenceNumber ackNumber) [.str len data]
  | _ => .error .operandShape

/-- The one operand of PKT_RECV, a signed number of TIMEOUT_W bits (R75, R76, R109). -/
def withTimeout (c : Config) : List Arg → Except DecodeError Instr
  | [.timeout ms] => if c.fitsTimeout ms = false then .error .timeoutTooWide else .ok (.pktRecv ms)
  | _ => .error .operandShape

/-- An operation without operands (R75). -/
def withNothing (i : Instr) : List Arg → Except DecodeError Instr
  | [] => .ok i
  | _ => .error .operandShape

/-- The command codes of R75. A reserved code is reserved whatever operands come with it (R142). -/
def decodeCmd (c : Config) (r : RawCmd) : Except DecodeError Instr :=
  match r.code.toNat with
  | 0x0 => .ok .reserved0
  | 0x1 => withString c b64Length .b64enc r.args
  | 0x2 => withString c id .b64dec r.args
  | 0x3 => withString c b64Length .pktSend r.args
  | 0x4 => withTimeout c r.args
  | 0x5 => withString c id .crc32 r.args
  | 0x6 => withString c id .crcCheck r.args
  | 0x7 => withSegment c r.args
  | 0x8 => withString c id .segDec r.args
  | 0x9 => withNothing .reset r.args
  | 0xA => withNothing .status r.args
  | 0xB => .ok .reservedB
  | _ => .ok (.reservedCF (r.code.extractLsb' 0 2))

/-- The decoder. -/
def decode (c : Config) : Raw → Except DecodeError Instr
  | .cmd r => decodeCmd c r
  | .rx b => .ok (classify b)

/-- A byte-string operand as the HOST presents it (R74). -/
def strArg (bytes : Bytes) : Arg := .str bytes.length bytes

/-- The CMD of an operation: its code and its operands (R75). -/
def cmd (code : BitVec 4) (args : List Arg) : Raw := .cmd { code := code, args := args }

/-- The encoder, from the same tables (R75, R62). -/
def encode : Instr → Raw
  | .b64enc bytes => cmd 0x1 [strArg bytes]
  | .b64dec text => cmd 0x2 [strArg text]
  | .pktSend bytes => cmd 0x3 [strArg bytes]
  | .pktRecv timeout => cmd 0x4 [.timeout timeout]
  | .crc32 bytes => cmd 0x5 [strArg bytes]
  | .crcCheck bytes => cmd 0x6 [strArg bytes]
  | .segEnc isAck sequenceNumber ackNumber data =>
    cmd 0x7 [.bit isAck, .word sequenceNumber, .word ackNumber, strArg data]
  | .segDec bytes => cmd 0x8 [strArg bytes]
  | .reset => cmd 0x9 []
  | .status => cmd 0xA []
  | .reserved0 => cmd 0x0 []
  | .reservedB => cmd 0xB []
  | .reservedCF low => cmd (0b11#2 ++ low) []
  | .rxStart => .rx startByte
  | .rxEnd => .rx endByte
  | .rxData b => .rx b

/-- The two formats of the opcode table: a 4-bit command code (R74) and a received byte (R62). -/
inductive OpcodeFormat where
  | cmd4
  | rxByte
  deriving DecidableEq, Repr

/-- A row of spec/opcode_table.json: the bits under `mask` equal `pattern`. -/
structure OpcodeRow where
  mnemonic : String
  format : OpcodeFormat
  mask : Nat
  pattern : Nat
  deriving DecidableEq, Repr

/-- The rows of R75 and R142. -/
def commandRows : List OpcodeRow :=
  [
    { mnemonic := "B64ENC", format := .cmd4, mask := 0xF, pattern := 0x1 },
    { mnemonic := "B64DEC", format := .cmd4, mask := 0xF, pattern := 0x2 },
    { mnemonic := "PKT_SEND", format := .cmd4, mask := 0xF, pattern := 0x3 },
    { mnemonic := "PKT_RECV", format := .cmd4, mask := 0xF, pattern := 0x4 },
    { mnemonic := "CRC32", format := .cmd4, mask := 0xF, pattern := 0x5 },
    { mnemonic := "CRC_CHECK", format := .cmd4, mask := 0xF, pattern := 0x6 },
    { mnemonic := "SEG_ENC", format := .cmd4, mask := 0xF, pattern := 0x7 },
    { mnemonic := "SEG_DEC", format := .cmd4, mask := 0xF, pattern := 0x8 },
    { mnemonic := "RESET", format := .cmd4, mask := 0xF, pattern := 0x9 },
    { mnemonic := "STATUS", format := .cmd4, mask := 0xF, pattern := 0xA },
    { mnemonic := "RESERVED_0", format := .cmd4, mask := 0xF, pattern := 0x0 },
    { mnemonic := "RESERVED_B", format := .cmd4, mask := 0xF, pattern := 0xB },
    { mnemonic := "RESERVED_C_F", format := .cmd4, mask := 0xC, pattern := 0xC }]

/-- The rows of R62, in the order they are tried: RX_DATA fixes no bit and is the last. -/
def byteRows : List OpcodeRow :=
  [
    { mnemonic := "RX_START", format := .rxByte, mask := 0xFF, pattern := 0x00 },
    { mnemonic := "RX_END", format := .rxByte, mask := 0xFF, pattern := 0x04 },
    { mnemonic := "RX_DATA", format := .rxByte, mask := 0x00, pattern := 0x00 }]

/-- spec/opcode_table.json. -/
def opcodeTable : List OpcodeRow := commandRows ++ byteRows

/-- The row takes the raw form. -/
def OpcodeRow.selects (row : OpcodeRow) : Raw → Bool
  | .cmd c => row.format == .cmd4 && c.code.toNat &&& row.mask == row.pattern
  | .rx b => row.format == .rxByte && b.toNat &&& row.mask == row.pattern

/-- The mnemonic of the first row that takes the raw form. -/
def selectRow (r : Raw) : Option String := (opcodeTable.find? fun row => row.selects r).map OpcodeRow.mnemonic

/-- An instruction's mnemonic in the table. -/
def Instr.mnemonic : Instr → String
  | .b64enc _ => "B64ENC"
  | .b64dec _ => "B64DEC"
  | .pktSend _ => "PKT_SEND"
  | .pktRecv _ => "PKT_RECV"
  | .crc32 _ => "CRC32"
  | .crcCheck _ => "CRC_CHECK"
  | .segEnc _ _ _ _ => "SEG_ENC"
  | .segDec _ => "SEG_DEC"
  | .reset => "RESET"
  | .status => "STATUS"
  | .reserved0 => "RESERVED_0"
  | .reservedB => "RESERVED_B"
  | .reservedCF _ => "RESERVED_C_F"
  | .rxStart => "RX_START"
  | .rxEnd => "RX_END"
  | .rxData _ => "RX_DATA"

/-- The operands of value zero that go with a command code: empty byte strings, timeout 0, is_ack 0, numbers 0 (R75, R76). -/
def zeroArgs : Nat → List Arg
  | 0x1 => [strArg []]
  | 0x2 => [strArg []]
  | 0x3 => [strArg []]
  | 0x4 => [.timeout 0]
  | 0x5 => [strArg []]
  | 0x6 => [strArg []]
  | 0x7 => [.bit false, .word 0, .word 0, strArg []]
  | 0x8 => [strArg []]
  | _ => []

/-- The raw form of a word of the opcode table. The table numbers the 4-bit codes and the 8-bit received bytes from the same
bit 0, so a word below 16 is read as a command code with operands of value zero, and a word of 16 to 255 given in at least 8 bits
is read as a received byte (DESIGN CHOICE, log 10). -/
def rawOfTableWord (nbits w : Nat) : Option Raw :=
  if w < 16 then some (cmd (BitVec.ofNat 4 w) (zeroArgs w))
  else if 8 ≤ nbits ∧ w < 256 then some (.rx (BitVec.ofNat 8 w))
  else none

/-- The instruction the decoder reads from a word of the opcode table, in the default build. -/
def decodeTableWord (nbits w : Nat) : Option Instr :=
  (rawOfTableWord nbits w).bind fun r => (decode Config.default r).toOption

end Sys2Proof
end

