-- ==== Sys2Proof/Machine/State.lean ====
section
/-! DEFINITION. The state of the block, of the agents around it that the spec names (R4, R31), and of the HOST's transport
protocol (45_host_transport.md); why a step can stop; and the machine right after reset. -/

namespace Sys2Proof.Machine

/-- `PST`, the parser state (R21). Code 3 is reserved and unreachable, so it has no constructor (U14). -/
inductive ParserState where
  | waitingForStart
  | reading
  | packetReady
  deriving DecidableEq, Repr

/-- A byte space held as cells (offset, byte): offsets strictly rising, no entry equal to what an unlisted offset reads as. -/
abbrev Memory := List Host.Cell

/-- The operation in progress. Every operation but PKT_SEND and PKT_RECV ends in the step that begins it (R5, D1); these two
interleave with the BYTE SINK, the BYTE SOURCE and the CLOCK, and may never end (R215). -/
inductive InProgress where
  /-- an operation boundary: no operation is in progress (R16) -/
  | idle
  /-- PKT_SEND: the bytes of the packet that the BYTE SINK has not accepted yet (R108) -/
  | sending (rest : Bytes)
  /-- PKT_RECV with its wait bound, and `t0`, the CLOCK when it began (R30, R110) -/
  | receiving (timeout : Int) (t0 : Nat)
  deriving DecidableEq, Repr

/-- The Packet record, the result of PKT_RECV (R26). -/
structure Packet where
  payload : Bytes
  byteCount : Nat
  timedOut : Bool
  wellFormed : Bool
  deriving DecidableEq, Repr

/-- The Segment record as SEG_DEC returns it, `data_len` among the fields (R27, R132). -/
structure Segment where
  checksumValid : Bool
  fields : SegFields
  deriving DecidableEq, Repr

/-- The result record of an operation (R75, R76). `done` is the end of an operation without results. Every result but `illegal`
carries `illegal = 0` (R142). -/
inductive Result where
  /-- B64ENC -/
  | text (t : Bytes)
  /-- B64DEC and SEG_ENC -/
  | bytes (b : Bytes)
  /-- PKT_RECV -/
  | packet (p : Packet)
  /-- CRC32 -/
  | crc (v : Word32)
  /-- CRC_CHECK -/
  | checksumValid (v : Bool)
  /-- SEG_DEC -/
  | segment (r : Segment)
  /-- STATUS -/
  | status (v : BitVec 16)
  /-- PKT_SEND and RESET -/
  | done
  /-- a reserved command code: `illegal = 1` -/
  | illegal
  deriving DecidableEq, Repr

/-- What the HOST does next at an operation boundary: present a CMD of its own choice (R74, R158), or run one of its procedures. -/
inductive HostCall where
  | cmd (c : RawCmd)
  /-- `send_ack(number)` (R154) -/
  | sendAck (number : Word32)
  /-- set both counters to 0xFFFFFFFF: the HOST's own step (2) of bringing up a session (R203), before or after a RESET -/
  | resetCounters
  /-- a RESET that means a new session: the HOST issues it and resets its own counters (R158, R140) -/
  | newSession
  /-- `send_data(bytes)` (R151); `ackField` is DATA_ACK_FIELD for its segment, where the build leaves it to each call (R159) -/
  | sendData (bytes : Bytes) (ackField : Word32)
  /-- `receive_data(buffer, max_bytes)` (R153) -/
  | receiveData (maxBytes : Nat)
  /-- `send_string(text)`, the bytes of the text (R156) -/
  | sendString (text : Bytes) (ackField : Word32)
  /-- `receive_string()` (R156) -/
  | receiveString
  deriving DecidableEq, Repr

/-- What a procedure of the HOST returns to the application (R151, R153, R156, R161). -/
inductive HostReturn where
  /-- `send_data` and `send_string` return no value (R161) -/
  | sent
  /-- `send_ack` has sent its segment -/
  | acked
  /-- `receive_data` returns the length, or OVERFLOW_SENTINEL, with the bytes copied into the buffer -/
  | received (value : Int) (buffer : Bytes)
  /-- `receive_string` delivers the string's bytes -/
  | string (text : Bytes)
  /-- `receive_string` reports that the message exceeds MSG_MAX -/
  | stringTooLong
  deriving DecidableEq, Repr

/-- Who waits for a message: `receive_data` with its `max_bytes`, or `receive_string` (R153, R156). -/
inductive Receiver where
  | data (maxBytes : Nat)
  | string
  deriving DecidableEq, Repr

/-- What the HOST goes on with after a `send_ack` (R154). -/
inductive AfterAck where
  /-- a stand-alone `send_ack` returns -/
  | finish
  /-- `send_data` sends its segment again (R151, R152 third row) -/
  | resend (s : Word32) (seg : Bytes)
  /-- `receive_data` goes on waiting: the segment was a duplicate (R153 third point) -/
  | awaitMore (r : Receiver)
  /-- `receive_data` advances `last_acknowledged`, copies and returns (R153 second point) -/
  | deliver (number : Word32) (data : Bytes) (dataLen : Nat) (r : Receiver)
  deriving DecidableEq, Repr

/-- Where the HOST stands: the operation it issued last and what for (R151, R153, R154). -/
inductive HostPhase where
  | idle
  /-- `send_data` has issued SEG_ENC for sequence number `s` -/
  | sendEncoding (s : Word32)
  /-- `send_data` has issued PKT_SEND of `seg` -/
  | sendSending (s : Word32) (seg : Bytes)
  /-- `send_data` has issued PKT_RECV with the acknowledgement timeout -/
  | sendWaiting (s : Word32) (seg : Bytes)
  /-- `send_data` has issued SEG_DEC of the reply -/
  | sendDecoding (s : Word32) (seg : Bytes)
  /-- `receive_data` has issued PKT_RECV -1 -/
  | recvWaiting (r : Receiver)
  /-- `receive_data` has issued SEG_DEC of the payload -/
  | recvDecoding (r : Receiver)
  /-- `send_ack` has issued SEG_ENC -/
  | ackEncoding (next : AfterAck)
  /-- `send_ack` has issued PKT_SEND -/
  | ackSending (next : AfterAck)
  deriving DecidableEq, Repr

/-- The HOST: its two connection counters (R150), where it stands, what it will do next, and what it has returned. -/
structure HostState where
  lastDelivered : Word32
  lastAcknowledged : Word32
  phase : HostPhase
  calls : List HostCall
  returns : List HostReturn
  deriving DecidableEq, Repr

/-- The state. -/
structure State where
  /-- the build's configuration record, written by no step (R8) -/
  cfg : Config
  /-- `PST` (R21) -/
  pst : ParserState
  /-- `IDX` (R22) -/
  idx : Nat
  /-- `ACC` (R23) -/
  acc : Memory
  /-- the operation in progress (R5, R30, R210) -/
  op : InProgress
  /-- the result records handed to the HOST, oldest first (R26, R27, R34) -/
  results : List Result
  /-- the BYTE SOURCE's bytes not yet taken, oldest first (R31, R56) -/
  source : Bytes
  /-- the bytes the BYTE SINK has accepted, in order (R51, R52) -/
  sink : Bytes
  /-- how many more bytes the BYTE SINK accepts without waiting (R108) -/
  sinkRoom : Nat
  /-- the CLOCK: `CLOCK_W` bits, below `2 ^ clockW` (R183) -/
  clock : Nat
  /-- the HOST (R150) -/
  host : HostState
  /-- the model's own: what the outside does during this step (log 5) -/
  turn : Turn
  /-- the model's own: what the outside does during the next steps (log 5) -/
  agenda : List Turn
  /-- the model's own: how many free values have been drawn (log 4) -/
  draws : Nat
  deriving DecidableEq, Repr

/-- Why the machine stops with a fault. No operation faults (R170): this one marks a state that no run reaches. -/
inductive Fault where
  /-- Raised by RX_START, RX_END, RX_DATA and PKT_RECV when the parser stands in PACKET_READY, where R102 says the parser step "is
  never applied". Safe: the state is unreachable from any operation boundary (R24 (a)), and nothing is claimed of it. -/
  | parserStepInPacketReady
  deriving DecidableEq, Repr

/-- Why the model gives a step no meaning. -/
inductive Refusal where
  /-- Raised by an arm of `exec` whose instruction has no meaning in the model. Safe. -/
  | notModelled (mnemonic : String)
  /-- Raised by the ten operations and the reserved codes when an operation is in progress: "The block does not accept one" (R210).
  `step` never gets there, since it takes a CMD at an operation boundary only. Safe. -/
  | operationInProgress
  /-- Raised by `step` when the HOST presents something that is no CMD (R42, R74, R76). Safe. -/
  | malformedCommand (e : DecodeError)
  deriving DecidableEq, Repr

/-- An outcome of this machine. -/
abbrev Outcome := Host.Outcome State Fault Refusal

/-- The HOST at the beginning of a session: both counters one below zero (R150, R32). -/
def HostState.reset : HostState :=
  { lastDelivered := 0xFFFFFFFF, lastAcknowledged := 0xFFFFFFFF, phase := .idle, calls := [], returns := [] }

/-- The machine right after reset (R32, R201), with the default build (R8). The values the spec does not give are named in
logs 2, 4, 5, 7, 8, 9, 11, 15 and 16. -/
def State.reset : State :=
  { cfg := Config.default
    pst := .waitingForStart
    idx := 0
    acc := []
    op := .idle
    results := []
    source := []
    sink := []
    sinkRoom := 0
    clock := 0
    host := HostState.reset
    turn := Turn.quiet
    agenda := []
    draws := 0 }

end Sys2Proof.Machine
end

