-- ==== Sys2Proof/Machine/Operands.lean ====
section
/-! DEFINITION. Operand forms: offsets and slices of byte strings (R10), the little-endian 32-bit field (R12, R65), the flag byte
(R64), the wait bound (R109), and the codes of the parser states with the STATUS layout (R21, R29). -/

namespace Sys2Proof.Machine

/-- `s[i]` (R10). Every rule reads within the string; beyond its end the function, being total, gives 0. -/
def byteAt (s : Bytes) (i : Nat) : Byte := s.getD i 0

/-- `s[a..b)` (R10). -/
def slice (s : Bytes) (a b : Nat) : Bytes := (s.drop a).take (b - a)

/-- `LE32(v)`: least significant byte first (R12). -/
def le32 (v : Word32) : Bytes :=
  [v.extractLsb' 0 8, v.extractLsb' 8 8, v.extractLsb' 16 8, v.extractLsb' 24 8]

/-- `unLE32(s[a..a+4))`: the four bytes `b0, b1, b2, b3` at increasing offsets become `{b3, b2, b1, b0}` (R12, R65). -/
def readLe32 (s : Bytes) (a : Nat) : Word32 :=
  byteAt s (a + 3) ++ byteAt s (a + 2) ++ byteAt s (a + 1) ++ byteAt s a

/-- The four bytes of a 32-bit field, in the build's byte order (R8, R43). -/
def writeField : ByteOrder → Word32 → Bytes
  | .littleEndian, v => le32 v

/-- The 32-bit field at an offset, in the build's byte order (R8, R43). -/
def readField : ByteOrder → Bytes → Nat → Word32
  | .littleEndian, s, a => readLe32 s a

/-- The flag byte SEG_ENC writes: `zext_8(is_ack)`, bits 7 to 1 zero (R64, R131). -/
def flagByte (isAck : Bool) : Byte := (BitVec.ofBool isAck).setWidth 8

/-- The CLOCK after some milliseconds: it wraps at `2^CLOCK_W` (R183). -/
def advanceClock (c : Config) (clock elapsed : Nat) : Nat := (clock + elapsed) % 2 ^ c.clockW

/-- The elapsed time between two readings of the CLOCK, `(now() - t0) mod 2^CLOCK_W` (R110, R183). -/
def elapsedSince (c : Config) (t0 clock : Nat) : Int := ((clock : Int) - (t0 : Int)) % ((2 ^ c.clockW : Nat) : Int)

/-- A negative `timeout` means wait without bound (R109). -/
def waitIsBounded (timeout : Int) : Bool := decide (0 ≤ timeout)

/-- The wait bound has passed: `timeout >= 0 and ((now() - t0) mod 2^CLOCK_W) >= timeout` (R110). -/
def boundPassed (c : Config) (clock t0 : Nat) (timeout : Int) : Bool :=
  waitIsBounded timeout && decide (timeout ≤ elapsedSince c t0 clock)

/-- The 2-bit codes of the parser states (R21). -/
def ParserState.code : ParserState → BitVec 2
  | .waitingForStart => 0
  | .reading => 1
  | .packetReady => 2

/-- The STATUS view: `{ zext_14(IDX), PST }` (R29, R141). -/
def statusView (pst : ParserState) (idx : Nat) : BitVec 16 := BitVec.ofNat 14 idx ++ pst.code

end Sys2Proof.Machine
end

