-- ==== Sys2Proof/Machine/Base64Codec.lean ====
section
/-! DEFINITION. The base64 code as pure functions of the build's parameters and of byte strings: alphabet (R69), groups of three bytes
and the two tail forms (R68, R70), canonical text (R93) and its decoding (R94), and the open result for other text (R96). -/

namespace Sys2Proof.Machine

/-- `enc6(i)`: the character at index `i` of the alphabet (R69). -/
def enc6 (p : Base64Params) (i : BitVec 6) : Byte := byteAt p.alphabet i.toNat

/-- `dec6(c)`, the inverse of `enc6`: the index of a character, "undefined on every other byte value" (R69). -/
def dec6 (p : Base64Params) (c : Byte) : Option (BitVec 6) := (p.alphabet.idxOf? c).map (BitVec.ofNat 6)

/-- A full group: `g = {b0, b1, b2}` gives `g[23:18], g[17:12], g[11:6], g[5:0]` (R68). -/
def encodeGroup3 (p : Base64Params) (b0 b1 b2 : Byte) : Bytes :=
  let g : BitVec 24 := b0 ++ b1 ++ b2
  [enc6 p (g.extractLsb' 18 6), enc6 p (g.extractLsb' 12 6), enc6 p (g.extractLsb' 6 6), enc6 p (g.extractLsb' 0 6)]

/-- The tail of two left-over bytes (R70). -/
def encodeTail2 (p : Base64Params) (b0 b1 : Byte) : Bytes :=
  [enc6 p (b0.extractLsb' 2 6), enc6 p (b0.extractLsb' 0 2 ++ b1.extractLsb' 4 4), enc6 p (b1.extractLsb' 0 4 ++ 0#2), p.pad]

/-- The tail of one left-over byte (R70). -/
def encodeTail1 (p : Base64Params) (b0 : Byte) : Bytes :=
  [enc6 p (b0.extractLsb' 2 6), enc6 p (b0.extractLsb' 0 2 ++ 0#4), p.pad, p.pad]

/-- `B64ENC(bytes)` (R91). -/
def b64Encode (p : Base64Params) : Bytes → Bytes
  | [] => []
  | [b0] => encodeTail1 p b0
  | [b0, b1] => encodeTail2 p b0 b1
  | b0 :: b1 :: b2 :: rest => encodeGroup3 p b0 b1 b2 ++ b64Encode p rest

/-- One group of four text bytes, `isLast` when no text follows: the bytes it stands for (R94), or none where the group is not
one of a canonical text (R93): a byte outside the alphabet, a pad before the last group or in another place than the last or the
last two, or non-zero padding bits. -/
def decodeGroup (p : Base64Params) (isLast : Bool) (c0 c1 c2 c3 : Byte) : Option Bytes :=
  match dec6 p c0, dec6 p c1 with
  | some v0, some v1 =>
    if c2 = p.pad then
      if c3 = p.pad ∧ isLast = true ∧ v1.extractLsb' 0 4 = 0#4 then
        let g : BitVec 12 := v0 ++ v1
        some [g.extractLsb' 4 8]
      else none
    else
      match dec6 p c2 with
      | none => none
      | some v2 =>
        if c3 = p.pad then
          if isLast = true ∧ v2.extractLsb' 0 2 = 0#2 then
            let g : BitVec 18 := v0 ++ v1 ++ v2
            some [g.extractLsb' 10 8, g.extractLsb' 2 8]
          else none
        else
          match dec6 p c3 with
          | none => none
          | some v3 =>
            let g : BitVec 24 := v0 ++ v1 ++ v2 ++ v3
            some [g.extractLsb' 16 8, g.extractLsb' 8 8, g.extractLsb' 0 8]
  | _, _ => none

/-- The decoding of a canonical text (R94), and none where the text is not canonical (R93). -/
def decodeCanonical (p : Base64Params) : Bytes → Option Bytes
  | [] => some []
  | c0 :: c1 :: c2 :: c3 :: rest =>
    match decodeGroup p rest.isEmpty c0 c1 c2 c3, decodeCanonical p rest with
    | some front, some back => some (front ++ back)
    | _, _ => none
  | _ => none

/-- The text is canonical (R93). -/
def isCanonical (p : Base64Params) (text : Bytes) : Bool := (decodeCanonical p text).isSome

/-- `B64DEC_NC(text)`: open, the function the build's number names, of the text alone, no longer than `floor(3 * len(text) / 4)`
(R96, log 3). -/
def b64DecodeNonCanonical (p : Base64Params) (text : Bytes) : Bytes :=
  (Config.b64decNcRaw p.decNc text).take (3 * text.length / 4)

/-- `B64DEC(text)` (R94 on canonical text, R96 on other text). -/
def b64Decode (p : Base64Params) (text : Bytes) : Bytes :=
  match decodeCanonical p text with
  | some bytes => bytes
  | none => b64DecodeNonCanonical p text

/-- `encode_packet(b)`: START, the text, END, which is what PKT_SEND hands to the sink (R61, R81). -/
def encodePacket (p : Base64Params) (bytes : Bytes) : Bytes := startByte :: (b64Encode p bytes ++ [endByte])

end Sys2Proof.Machine
end

