-- ==== Sys2Proof/Machine/CrcUnit.lean ====
section
/-! DEFINITION. The CRC-32 unit as pure functions (R120 to R122), and the segment layout that carries its result (R63 to R67). -/

namespace Sys2Proof.Machine

/-- One shift of the register: a logical right shift, and the reflected polynomial where bit 0 left (R121, R122). -/
def crcShift (p : CrcParams) (crc : Word32) : Word32 :=
  if crc.getLsbD 0 then (crc >>> 1) ^^^ p.polyReflected else crc >>> 1

/-- `n` shifts. -/
def crcShifts (p : CrcParams) : Nat → Word32 → Word32
  | 0, crc => crc
  | n + 1, crc => crcShifts p n (crcShift p crc)

/-- A byte as it enters the register: bit 0 first when the input is reflected (R120). -/
def crcInput (p : CrcParams) (b : Byte) : Byte := if p.reflectIn then b else b.reverse

/-- The register after one byte: the byte enters the low 8 bits, then eight shifts (R121). -/
def crcByte (p : CrcParams) (crc : Word32) (b : Byte) : Word32 :=
  crcShifts p 8 (crc ^^^ (crcInput p b).setWidth 32)

/-- The register after a byte string, from the register `crc` (R121). -/
def crcRegister (p : CrcParams) (crc : Word32) (bytes : Bytes) : Word32 := bytes.foldl (crcByte p) crc

/-- The result from the register: output reflection and the final xor (R120, R121). -/
def crcOutput (p : CrcParams) (crc : Word32) : Word32 :=
  (if p.reflectOut then crc else crc.reverse) ^^^ p.xorOut

/-- `CRC32(bytes)` (R121). -/
def crc32 (p : CrcParams) (bytes : Bytes) : Word32 := crcOutput p (crcRegister p p.init bytes)

/-- The covered bytes of a segment: flags, numbers, data (R63, R131). -/
def segmentHead (o : ByteOrder) (isAck : Bool) (sequenceNumber ackNumber : Word32) (data : Bytes) : Bytes :=
  [flagByte isAck] ++ writeField o sequenceNumber ++ writeField o ackNumber ++ data

/-- A byte string followed by its CRC-32 trailer, a 32-bit field (R63, R67). -/
def withTrailer (c : Config) (head : Bytes) : Bytes := head ++ writeField c.byteOrder (crc32 c.crc head)

/-- `encode_segment` (R131). -/
def encodeSegment (c : Config) (isAck : Bool) (sequenceNumber ackNumber : Word32) (data : Bytes) : Bytes :=
  withTrailer c (segmentHead c.byteOrder isAck sequenceNumber ackNumber data)

/-- The fields of a segment by position; `data` is recovered as `bytes[9..L-4)` and its length as `L - 13` (R66, R132). -/
def segmentFields (o : ByteOrder) (bytes : Bytes) : SegFields :=
  { isAck := (byteAt bytes 0).getLsbD 0
    sequenceNumber := readField o bytes 1
    ackNumber := readField o bytes 5
    data := slice bytes 9 (bytes.length - 4)
    dataLen := bytes.length - 13 }

end Sys2Proof.Machine
end

