-- ==== Sys2Proof/Machine/Flags.lean ====
section
/-! DEFINITION. The one-bit results that play the part of flags (R28). None is stored between operations; each is computed here,
once. -/

namespace Sys2Proof.Machine

/-- `checksum_valid` of CRC_CHECK: the CRC-32 of all bytes but the trailing 4 equals the transmitted value; 0 when there is no
trailer to compare with (R123). -/
def checksumValid (c : Config) (bytes : Bytes) : Bool :=
  decide (4 ≤ bytes.length) &&
    crc32 c.crc (slice bytes 0 (bytes.length - 4)) == readField c.byteOrder bytes (bytes.length - 4)

/-- `checksum_valid` of SEG_DEC: the length test comes first, then CRC_CHECK (R132, R133, R178). -/
def segmentValid (c : Config) (bytes : Bytes) : Bool :=
  decide (13 ≤ bytes.length) && checksumValid c bytes

/-- The record of a complete packet: `timed_out = 0`, `well_formed = 1` whatever the text was (R107). -/
def completePacket (p : Base64Params) (text : Bytes) : Packet :=
  { payload := b64Decode p text, byteCount := (b64Decode p text).length, timedOut := false, wellFormed := true }

/-- The record of a timed-out wait: the accumulated text as it stands, not decoded, `timed_out = 1`, `well_formed = 0` (R111). -/
def timedOutPacket (text : Bytes) : Packet :=
  { payload := text, byteCount := text.length, timedOut := true, wellFormed := false }

/-- `illegal`: 1 for a reserved command code, 0 for every defined operation (R142). -/
def Result.illegalFlag : Result → Bool
  | .illegal => true
  | _ => false

end Sys2Proof.Machine
end

