-- ==== Sys2Proof/Machine/Ops.lean ====
section
/-! DEFINITION. The shared operations: the byte space ACC (R23, R41), the parser step (R102), the two ends of PKT_RECV (R107, R111),
its polling loop (R109, R110), the sink (R108), results, free values, and the turn of the outside. No operation takes an exception:
"There is no exception vector, no cause register, no saved state and no handler" (R170), so there is no such operation here;
`reportIllegal` is what a reserved code does instead (R142). -/

namespace Sys2Proof.Machine

/-! ### The byte space ACC -/

/-- What an offset that nothing has written reads as. The spec leaves it unspecified and lets no rule read it (R23, R32): DESIGN
CHOICE 0, log 7. -/
def Memory.unwritten : Byte := 0x00

/-- The byte at an offset. -/
def Memory.read : Memory → Nat → Byte
  | [], _ => Memory.unwritten
  | (k, v) :: rest, a => if k = a then v else Memory.read rest a

/-- A cell in front of a memory, left out where it holds what an unlisted offset reads as. -/
def Memory.cons (a : Nat) (b : Byte) (m : Memory) : Memory := if b = Memory.unwritten then m else (a, b) :: m

/-- Write one byte, keeping the canonical form. -/
def Memory.write : Memory → Nat → Byte → Memory
  | [], a, b => Memory.cons a b []
  | (k, v) :: rest, a, b =>
    if k < a then (k, v) :: Memory.write rest a b
    else if k = a then Memory.cons a b rest
    else Memory.cons a b ((k, v) :: rest)

/-- The canonical form from offset `lo` up: offsets strictly rising, no entry equal to what an unlisted offset reads as. -/
def Memory.wfFrom (lo : Nat) : Memory → Bool
  | [] => true
  | (k, v) :: rest => decide (lo ≤ k) && v != Memory.unwritten && Memory.wfFrom (k + 1) rest

/-- The canonical form. -/
def Memory.wf (m : Memory) : Bool := Memory.wfFrom 0 m

/-- The prefix at offsets `0 .. n-1` (R41). -/
def Memory.readPrefix (m : Memory) (n : Nat) : Bytes := (List.range n).map m.read

/-- The accumulated text, `ACC[0..IDX)` (R23). -/
def State.text (s : State) : Bytes := s.acc.readPrefix s.idx

/-! ### Results and free values -/

/-- Hand a result record to the HOST; earlier records stay as they are (R34). -/
def State.respond (r : Result) (s : State) : State := { s with results := s.results ++ [r] }

/-- End the operation in progress with its result record. -/
def State.finish (r : Result) (s : State) : State := ({ s with op := .idle } : State).respond r

/-- A data field is at most `LEN_MAX - 13` bytes (R27), which bounds a drawn one too. -/
def clipData (c : Config) (f : SegFields) : SegFields :=
  match c.lenMax with
  | none => f
  | some m => { f with data := f.data.take (m - 13) }

/-- The fields of a segment whose check failed: a draw (R134, log 4). -/
def State.anyFields (s : State) : SegFields := clipData s.cfg (Config.anySegment s.draws)

/-- Count a draw. -/
def State.drawn (s : State) : State := { s with draws := s.draws + 1 }

/-! ### Operation boundaries -/

/-- An operation of the HOST begins at an operation boundary only (R5, R210). -/
def atBoundary (s : State) (run : State → Outcome) : Outcome :=
  match s.op with
  | .idle => run s
  | _ => .refused .operationInProgress

/-- An operation that only computes a result record from its operands and the parser value (R33). -/
def respondWith (r : Result) (s : State) : Outcome := atBoundary s fun s => .next (s.respond r)

/-- A reserved command code: no state changes and no agent is used, the result is `illegal = 1` (R142). -/
def reportIllegal (s : State) : Outcome := respondWith .illegal s

/-! ### The parser -/

/-- The parser value after reset, after a complete packet and after an overflow: WAITING_FOR_START, IDX 0, ACC kept
(R106, R107, R140). -/
def State.clearParser (s : State) : State := { s with pst := .waitingForStart, idx := 0 }

/-- The parser step of R102 on the states it is defined for. In PACKET_READY it "is never applied", and nothing changes. -/
def parserStep (b : Byte) (s : State) : State :=
  match s.pst with
  | .waitingForStart => if b = startByte then { s with pst := .reading, idx := 0 } else s
  | .reading =>
    if b = endByte then { s with pst := .packetReady }
    else if s.idx < s.cfg.rxCap then { s with acc := s.acc.write s.idx b, idx := s.idx + 1 }
    else s.clearParser
  | .packetReady => s

/-- A received byte as an instruction: one parser step (R101), never in PACKET_READY (R102). -/
def receiveByte (b : Byte) (s : State) : Outcome :=
  if s.pst = .packetReady then .fault .parserStepInPacketReady else .next (parserStep b s)

/-- `complete()` (R107). -/
def complete (s : State) : State := s.clearParser.finish (.packet (completePacket s.cfg.b64 s.text))

/-- PACKET_READY is left in the operation that entered it (R107). -/
def settle (s : State) : State := if s.pst = .packetReady then complete s else s

/-- `timed_out()`: the parser value stays exactly as it is (R111). -/
def timeOut (s : State) : State := s.finish (.packet (timedOutPacket s.text))

/-- The clock test of a running PKT_RECV, where this turn makes it (R109, R110). -/
def clockTest (s : State) : State :=
  match s.op with
  | .receiving timeout t0 => if s.turn.testsClock && boundPassed s.cfg s.clock t0 timeout then timeOut s else s
  | _ => s

/-- A running PKT_RECV polls the BYTE SOURCE `n` times: each time, if a byte waits, it takes the oldest and makes one parser step,
and a byte that completes a packet ends the operation (R101, R107, R109, R110). -/
def pollLoop : Nat → State → State
  | 0, s => s
  | n + 1, s =>
    match s.op, s.source with
    | .receiving _ _, b :: rest => pollLoop n (settle (parserStep b { s with source := rest }))
    | _, _ => s

/-- What a running PKT_RECV does after its parser step within the same turn: leave PACKET_READY, poll `n` more times, test the
clock. A completed packet wins over the wait bound (R112). -/
def afterByte (n : Nat) (s : State) : State := clockTest (pollLoop n (settle s))

/-! ### The sink -/

/-- A running PKT_SEND hands over its bytes in order, as many as the BYTE SINK accepts; it is complete when the last byte has been
accepted (R51, R52, R108). -/
def pumpSink (s : State) : State :=
  match s.op with
  | .sending rest =>
    let s' := { s with
      sink := s.sink ++ rest.take s.sinkRoom
      sinkRoom := s.sinkRoom - rest.length
      op := .sending (rest.drop s.sinkRoom) }
    if rest.length ≤ s.sinkRoom then s'.finish .done else s'
  | _ => s

/-! ### The outside -/

/-- The effect of a turn outside the block: bytes join the BYTE SOURCE's queue, the CLOCK advances, the BYTE SINK offers room
(R56, R183, R184). -/
def State.underTurn (t : Turn) (s : State) : State :=
  { s with
    turn := t
    source := s.source ++ t.arrivals
    clock := advanceClock s.cfg s.clock t.elapsed
    sinkRoom := s.sinkRoom + t.sinkRoom }

/-- The turn of the step that begins now: the agenda's next one, else a free value (log 5). -/
def State.beginTurn (s : State) : State :=
  match s.agenda with
  | t :: later => ({ s with agenda := later } : State).underTurn t
  | [] => s.drawn.underTurn (Config.freeTurn s.draws)

/-- The block's reset state (R200, R201): the parser value is cleared and no operation is in progress, whatever it was doing. -/
def State.resetBlock (s : State) : State := { s.clearParser with op := .idle }

/-- Both counters one below zero, as a session begins (R32, R150, R203). -/
def HostState.clearCounters (h : HostState) : HostState :=
  { h with lastDelivered := HostState.reset.lastDelivered, lastAcknowledged := HostState.reset.lastAcknowledged }

/-- The HOST at power-on: its counters start a session (R32, R150, R203) and the procedure it was in is gone. What it will do next
and what it has returned are the application's (log 19). -/
def HostState.restart (h : HostState) : HostState := { h.clearCounters with phase := .idle }

/-- Power-on (R200, R202): the block and the HOST start again; the BYTE SOURCE keeps its bytes (R203), and what is on the wire stays
there. -/
def State.powerOn (s : State) : State := { s.resetBlock with host := s.host.restart }

end Sys2Proof.Machine
end

