-- ==== Sys2Proof/Machine/Base64.lean ====
section
/-! DEFINITION. The base64 unit: B64ENC and B64DEC. Both are pure (R90). -/

namespace Sys2Proof.Machine

/-- `B64ENC bytes -> text` (R91). -/
def execB64enc (bytes : Bytes) (s : State) : Outcome := respondWith (.text (b64Encode s.cfg.b64 bytes)) s

/-- `B64DEC text -> bytes` (R94, R96). -/
def execB64dec (text : Bytes) (s : State) : Outcome := respondWith (.bytes (b64Decode s.cfg.b64 text)) s

end Sys2Proof.Machine
end

