-- ==== Sys2Proof/Machine/Crc.lean ====
section
/-! DEFINITION. The CRC-32 unit: CRC32 and CRC_CHECK. Both are pure (R121, R123). -/

namespace Sys2Proof.Machine

/-- `CRC32 bytes -> crc` (R121). -/
def execCrc32 (bytes : Bytes) (s : State) : Outcome := respondWith (.crc (crc32 s.cfg.crc bytes)) s

/-- `CRC_CHECK bytes -> checksum_valid` (R123). -/
def execCrcCheck (bytes : Bytes) (s : State) : Outcome := respondWith (.checksumValid (checksumValid s.cfg bytes)) s

end Sys2Proof.Machine
end

