-- ==== Sys2Proof/Machine/Framing.lean ====
section
/-! DEFINITION. The packet framing unit: PKT_SEND, PKT_RECV, and the parser step of each class of received byte. -/

namespace Sys2Proof.Machine

/-- `PKT_SEND bytes` (R108): the packet's bytes go to the BYTE SINK in order, and the operation ends when all are accepted. The
parser value is untouched. -/
def execPktSend (bytes : Bytes) (s : State) : Outcome :=
  atBoundary s fun s => .next (pumpSink { s with op := .sending (encodePacket s.cfg.b64 bytes) })

/-- `PKT_RECV timeout -> Packet` (R109): `t0 <- now()`, then the polling of this turn and its clock test. An operation that neither
completes nor times out within the turn stays in progress. The payload is bounded by RX_CAP and RAW_CAP as R26 has it, and not cut
to LEN_MAX (DESIGN CHOICE, log 24). -/
def execPktRecv (timeout : Int) (s : State) : Outcome :=
  atBoundary s fun s =>
    if s.pst = .packetReady then .fault .parserStepInPacketReady
    else .next (clockTest (pollLoop s.turn.polls { s with op := .receiving timeout s.clock }))

/-- The byte 0x00 (R103; R105 and R106 in READING). -/
def execRxStart (s : State) : Outcome := receiveByte startByte s

/-- The byte 0x04 (R104; R103 in WAITING_FOR_START). -/
def execRxEnd (s : State) : Outcome := receiveByte endByte s

/-- Any other byte (R105, R106; R103 in WAITING_FOR_START). -/
def execRxData (b : Byte) (s : State) : Outcome := receiveByte b s

end Sys2Proof.Machine
end

