-- ==== Sys2Proof/Machine/SegmentCodec.lean ====
section
/-! DEFINITION. The segment codec: SEG_ENC and SEG_DEC (R130). -/

namespace Sys2Proof.Machine

/-- `SEG_ENC is_ack, sequence_number, ack_number, data -> bytes` (R131). -/
def execSegEnc (isAck : Bool) (sequenceNumber ackNumber : Word32) (data : Bytes) (s : State) : Outcome :=
  respondWith (.bytes (encodeSegment s.cfg isAck sequenceNumber ackNumber data)) s

/-- `SEG_DEC bytes -> Segment, data_len` (R132): the positional fields where the check holds; where it fails, `checksum_valid = 0`
and every other field is a draw (R133, R134). -/
def execSegDec (bytes : Bytes) (s : State) : Outcome :=
  atBoundary s fun s =>
    if segmentValid s.cfg bytes then
      .next (s.respond (.segment { checksumValid := true, fields := segmentFields s.cfg.byteOrder bytes }))
    else .next (s.drawn.respond (.segment { checksumValid := false, fields := s.anyFields }))

end Sys2Proof.Machine
end

