-- ==== Sys2Proof/Machine/System.lean ====
section
/-! DEFINITION. The system operations: RESET, STATUS and the reserved command codes. -/

namespace Sys2Proof.Machine

/-- `RESET`: `PST <- WAITING_FOR_START`, `IDX <- 0`; ACC is not cleared (R140). -/
def execReset (s : State) : Outcome := atBoundary s fun s => .next (s.clearParser.respond .done)

/-- `STATUS -> status` (R141). -/
def execStatus (s : State) : Outcome := respondWith (.status (statusView s.pst s.idx)) s

/-- Command code 0x0 (R142). -/
def execReserved0 (s : State) : Outcome := reportIllegal s

/-- Command code 0xB (R142). -/
def execReservedB (s : State) : Outcome := reportIllegal s

/-- Command codes 0xC to 0xF, all refused alike (R142). -/
def execReservedCF (_low : BitVec 2) (s : State) : Outcome := reportIllegal s

end Sys2Proof.Machine
end

