-- ==== Sys2Proof/Machine/Dispatch.lean ====
section
/-! DEFINITION. One arm for each constructor of Instr. -/

namespace Sys2Proof.Machine

def exec (i : Instr) (s : State) : Host.Outcome State Fault Refusal :=
  match i with
  | .b64enc bytes => Sys2Proof.Machine.execB64enc bytes s
  | .b64dec text => Sys2Proof.Machine.execB64dec text s
  | .pktSend bytes => Sys2Proof.Machine.execPktSend bytes s
  | .pktRecv timeout => Sys2Proof.Machine.execPktRecv timeout s
  | .crc32 bytes => Sys2Proof.Machine.execCrc32 bytes s
  | .crcCheck bytes => Sys2Proof.Machine.execCrcCheck bytes s
  | .segEnc isAck sequenceNumber ackNumber data => Sys2Proof.Machine.execSegEnc isAck sequenceNumber ackNumber data s
  | .segDec bytes => Sys2Proof.Machine.execSegDec bytes s
  | .reset => Sys2Proof.Machine.execReset s
  | .status => Sys2Proof.Machine.execStatus s
  | .reserved0 => Sys2Proof.Machine.execReserved0 s
  | .reservedB => Sys2Proof.Machine.execReservedB s
  | .reservedCF low => Sys2Proof.Machine.execReservedCF low s
  | .rxStart => Sys2Proof.Machine.execRxStart s
  | .rxEnd => Sys2Proof.Machine.execRxEnd s
  | .rxData b => Sys2Proof.Machine.execRxData b s

end Sys2Proof.Machine
end

