-- ==== Sys2Proof/Machine/Transport.lean ====
section
/-! DEFINITION. The HOST's transport protocol (45_host_transport.md) as the moves of one agent: at an operation boundary the HOST
looks at where it stands and at the last result record, and either issues one CMD or changes only its own state. It binds the HOST
and no part of the block; every operation it needs goes through the block's decoder like a CMD presented by hand. -/

namespace Sys2Proof.Machine

/-- A move of the HOST. -/
inductive HostMove where
  /-- issue a CMD, with the HOST's state while the operation runs -/
  | issue (c : Raw) (h : HostState)
  /-- issue nothing -/
  | stay (h : HostState)
  deriving DecidableEq, Repr

/-- The wait without bound, `PKT_RECV -1` (R153). -/
def waitForever : Int := -1

/-- `send_ack(number)` begins: an ack segment with the local `last_delivered` as sequence number and no data (R154). -/
def beginAck (number : Word32) (next : AfterAck) (h : HostState) : HostMove :=
  .issue (encode (.segEnc true h.lastDelivered number [])) { h with phase := .ackEncoding next }

/-- `send_data(bytes)` begins: `s <- (last_delivered + 1) mod 2^32` and SEG_ENC of the data segment (R151, R155), with
DATA_ACK_FIELD as its `ack_number`: the build's, or the call's own where the build leaves it open (R159). -/
def beginSend (c : Config) (bytes : Bytes) (ackField : Word32) (h : HostState) : HostMove :=
  .issue (encode (.segEnc false (h.lastDelivered + 1) (c.dataAckField.getD ackField) bytes))
    { h with phase := .sendEncoding (h.lastDelivered + 1) }

/-- The top of `send_data`'s loop: PKT_SEND of the same segment (R151). -/
def transmit (s : Word32) (seg : Bytes) (h : HostState) : HostMove :=
  .issue (encode (.pktSend seg)) { h with phase := .sendSending s seg }

/-- `receive_data` waits for a packet (R153). -/
def awaitPacket (r : Receiver) (h : HostState) : HostMove :=
  .issue (encode (.pktRecv waitForever)) { h with phase := .recvWaiting r }

/-- A procedure returns to the application. -/
def HostState.returning (v : HostReturn) (h : HostState) : HostState := { h with phase := .idle, returns := h.returns ++ [v] }

/-- `last_delivered <- s`, and `send_data` returns (R151). -/
def HostState.delivered (s : Word32) (h : HostState) : HostState := ({ h with lastDelivered := s } : HostState).returning .sent

/-- How many bytes the receiver's buffer takes: `max_bytes`, or MSG_MAX for a string (R153, R156). -/
def Receiver.capacity (c : Config) : Receiver → Nat
  | .data maxBytes => maxBytes
  | .string => c.msgMax

/-- What the receiver returns for a delivered segment: the copied prefix with the length, or OVERFLOW_SENTINEL where the message
exceeds the buffer (R153); `receive_string` reports a failure then (R156). -/
def deliveryReturn (c : Config) (data : Bytes) (dataLen : Nat) (r : Receiver) : HostReturn :=
  let copied := data.take (min dataLen (r.capacity c))
  match r with
  | .data maxBytes => .received (if maxBytes < dataLen then c.overflowSentinel else dataLen) copied
  | .string => if c.msgMax < dataLen then .stringTooLong else .string copied

/-- What follows a `send_ack` (R151, R153, R154). -/
def afterAck (c : Config) (h : HostState) : AfterAck → HostMove
  | .finish => .stay (h.returning .acked)
  | .resend s seg => transmit s seg h
  | .awaitMore r => awaitPacket r h
  | .deliver number data dataLen r =>
    .stay (({ h with lastAcknowledged := number } : HostState).returning (deliveryReturn c data dataLen r))

/-- `send_data` sorts a decoded reply, in the order of R152. -/
def sortReply (s : Word32) (seg : Bytes) (r : Segment) (h : HostState) : HostMove :=
  if r.checksumValid = false then transmit s seg h
  else if r.fields.isAck = true ∧ r.fields.ackNumber = s then .stay (h.delivered s)
  else if r.fields.isAck = false ∧ r.fields.sequenceNumber = h.lastAcknowledged then
    beginAck h.lastAcknowledged (.resend s seg) h
  else transmit s seg h

/-- `receive_data` sorts a decoded packet (R153). -/
def sortIncoming (r : Receiver) (g : Segment) (h : HostState) : HostMove :=
  if g.checksumValid = false then awaitPacket r h
  else if g.fields.isAck = false ∧ g.fields.sequenceNumber = h.lastAcknowledged + 1 then
    beginAck g.fields.sequenceNumber (.deliver g.fields.sequenceNumber g.fields.data g.fields.dataLen r) h
  else if g.fields.isAck = false ∧ g.fields.sequenceNumber = h.lastAcknowledged then
    beginAck h.lastAcknowledged (.awaitMore r) h
  else awaitPacket r h

/-- The HOST takes its next call. A session is brought up by a RESET and by the counters' initial values, in one call or in either
order (R158, R203). -/
def startCall (c : Config) (call : HostCall) (h : HostState) : HostMove :=
  match call with
  | .cmd r => .issue (.cmd r) h
  | .resetCounters => .stay h.clearCounters
  | .newSession => .issue (encode .reset) h.clearCounters
  | .sendAck number => beginAck number .finish h
  | .sendData bytes ackField => beginSend c bytes ackField h
  | .receiveData maxBytes => awaitPacket (.data maxBytes) h
  | .sendString text ackField => beginSend c text ackField h
  | .receiveString => awaitPacket .string h

/-- The HOST's move at an operation boundary, from the last result record. In a Packet record it tests `timed_out` before anything
else (R212). A record of another kind than the operation issued
gives cannot be the last one; the HOST then does nothing (log 16). -/
def hostMove (c : Config) (last : Option Result) (h : HostState) : HostMove :=
  match h.phase, last with
  | .idle, _ =>
    match h.calls with
    | [] => .stay h
    | call :: later => startCall c call { h with calls := later }
  | .sendEncoding s, some (.bytes seg) => transmit s seg h
  | .sendSending s seg, _ => .issue (encode (.pktRecv c.ackTimeoutMs)) { h with phase := .sendWaiting s seg }
  | .sendWaiting s seg, some (.packet p) =>
    if p.timedOut = true ∨ p.wellFormed = false then transmit s seg h
    else .issue (encode (.segDec p.payload)) { h with phase := .sendDecoding s seg }
  | .sendDecoding s seg, some (.segment r) => sortReply s seg r h
  | .recvWaiting r, some (.packet p) =>
    if p.timedOut = true ∨ p.wellFormed = false then awaitPacket r h
    else .issue (encode (.segDec p.payload)) { h with phase := .recvDecoding r }
  | .recvDecoding r, some (.segment g) => sortIncoming r g h
  | .ackEncoding next, some (.bytes seg) => .issue (encode (.pktSend seg)) { h with phase := .ackSending next }
  | .ackSending next, _ => afterAck c h next
  | _, _ => .stay h

end Sys2Proof.Machine
end

