-- ==== Sys2Proof/Machine/Fetch.lean ====
section
/-! DEFINITION. Fetching and running within a turn. A running PKT_RECV that polls takes the oldest byte of the BYTE SOURCE, decodes it
by its class and executes it; at an operation boundary the CMD the HOST issues is decoded by its code and executed. -/

namespace Sys2Proof.Machine

/-- Apply a function to the next state of an outcome. -/
def mapNext (f : State → State) : Outcome → Outcome
  | .next s => .next (f s)
  | .fault r => .fault r
  | .refused r => .refused r

/-- Decode a raw form and execute the instruction; what is no instruction is refused by name. -/
def runRaw (r : Raw) (s : State) : Outcome :=
  match decode s.cfg r with
  | .ok i => exec i s
  | .error e => .refused (.malformedCommand e)

/-- A running PKT_RECV during a turn (R109, R110). -/
def stepReceiving (s : State) : Outcome :=
  match s.turn.polls, s.source with
  | n + 1, b :: rest => mapNext (afterByte n) (runRaw (.rx b) { s with source := rest })
  | _, _ => .next (clockTest s)

/-- The HOST's move at an operation boundary (R74). -/
def stepHost (s : State) : Outcome :=
  match hostMove s.cfg s.results.getLast? s.host with
  | .issue c h => runRaw c { s with host := h }
  | .stay h => .next { s with host := h }

/-- What the block and the HOST do within the turn that has begun, where no power-on interrupts it. -/
def stepPowered (s : State) : Outcome :=
  match s.op with
  | .idle => stepHost s
  | .sending _ => .next (pumpSink s)
  | .receiving _ _ => stepReceiving s

/-- The turn that has begun: a power-on, or what the block and the HOST do (R202). -/
def stepWithin (s : State) : Outcome := if s.turn.powersOn then .next s.powerOn else stepPowered s

/-- The state `s` with a raw form placed where the next step fetches it. A CMD: the block at an operation boundary, the HOST about to
present it. A received byte: a PKT_RECV without wait bound in progress, the byte the oldest in the BYTE SOURCE. The next turn is a
quiet one that polls once (log 11). -/
def State.withFetch (s : State) : Raw → State
  | .cmd c =>
    { s with
      op := .idle
      host := { s.host with phase := .idle, calls := .cmd c :: s.host.calls }
      agenda := Turn.quiet :: s.agenda }
  | .rx b =>
    { s with
      op := .receiving waitForever s.clock
      source := b :: s.source
      agenda := { Turn.quiet with polls := 1 } :: s.agenda }

end Sys2Proof.Machine
end

