-- ==== Sys2Proof/Machine/Step.lean ====
section
/-! DEFINITION. One step of the machine: the outside's turn begins, then the operation in progress goes on, or the HOST moves. -/

namespace Sys2Proof.Machine

/-- One step. -/
def step (s : State) : Host.Outcome State Fault Refusal := stepWithin s.beginTurn

/-- The state `s` with a word of the opcode table placed where the next step fetches it (log 10, log 11). -/
def State.withFetchWord (s : State) (nbits w : Nat) : State :=
  match rawOfTableWord nbits w with
  | some r => s.withFetch r
  | none => s

end Sys2Proof.Machine
end

