-- ==== Sys2Proof/Safety.lean ====
section
/-! DEFINITION. What claims about the machine are stated in: the invariants of the parser value (R24) and of the HOST's counters
(R150), a run of parser steps (R109), a run of machine steps, and a single-bit change (R124). -/

namespace Sys2Proof.Machine

/-- The invariants of the parser value at every operation boundary (R24), with the canonical form of ACC, a legal build (R8) and a CLOCK
of CLOCK_W bits (R183). They also hold between two steps of an operation in progress. -/
structure State.Inv (s : State) : Prop where
  /-- the build is legal (R8, R141) -/
  cfgWf : s.cfg.wf = true
  /-- ACC is in canonical form -/
  accWf : s.acc.wf = true
  /-- ACC has offsets 0 to RX_CAP - 1 only (R23) -/
  accBound : ∀ a, s.cfg.rxCap ≤ a → s.acc.read a = Memory.unwritten
  /-- R24 (a) -/
  notReady : s.pst ≠ .packetReady
  /-- R24 (b) -/
  waitingEmpty : s.pst = .waitingForStart → s.idx = 0
  /-- R24 (c) -/
  idxBound : s.idx ≤ s.cfg.rxCap
  /-- R24 (d) -/
  noEnd : ∀ a, a < s.idx → s.acc.read a ≠ endByte
  /-- the CLOCK has CLOCK_W bits (R183) -/
  clockBound : s.clock < 2 ^ s.cfg.clockW

/-- The counters of the HOST and the numbers its procedures work with: `send_data` works on `last_delivered + 1`, and
`receive_data` is about to deliver `last_acknowledged + 1` (R150, R151, R153). -/
def AfterAck.Inv (h : HostState) : AfterAck → Prop
  | .finish => True
  | .resend s _ => s = h.lastDelivered + 1
  | .awaitMore _ => True
  | .deliver number _ _ _ => number = h.lastAcknowledged + 1

/-- The same, for where the HOST stands. -/
def HostState.Inv (h : HostState) : Prop :=
  match h.phase with
  | .idle => True
  | .sendEncoding s => s = h.lastDelivered + 1
  | .sendSending s _ => s = h.lastDelivered + 1
  | .sendWaiting s _ => s = h.lastDelivered + 1
  | .sendDecoding s _ => s = h.lastDelivered + 1
  | .recvWaiting _ => True
  | .recvDecoding _ => True
  | .ackEncoding next => next.Inv h
  | .ackSending next => next.Inv h

/-- The step that begins now starts a session: a power-on, or the HOST, standing in none of its procedures, sets its counters by
itself or with a RESET (R158, R203). -/
def State.StartsSession (s : State) : Prop :=
  s.beginTurn.turn.powersOn = true ∨
  (s.op = .idle ∧ s.host.phase = .idle ∧
    ∃ later, s.host.calls = .resetCounters :: later ∨ s.host.calls = .newSession :: later)

/-- The parser after the bytes `b1, ..., bk`, one parser step each: `Pi = step(P(i-1), bi)` (R109). -/
def parseBytes (bytes : Bytes) (s : State) : State := bytes.foldl (fun s b => parserStep b s) s

/-- After `n` steps the machine has not stopped and is in the last state. -/
def State.Reaches : State → Nat → State → Prop
  | s, 0, t => s = t
  | s, n + 1, t => ∃ u, step s = .next u ∧ u.Reaches n t

/-- The byte string with bit `k` changed: bit `k % 8` of the byte at offset `k / 8` (R124). -/
def flipBit (s : Bytes) (k : Nat) : Bytes := s.modify (k / 8) (· ^^^ (1#8 <<< (k % 8)))

end Sys2Proof.Machine
end

