-- ==== Sys2Proof/Certificates/Slice0/Obligations.lean ====
section
/-! DEFINITION. The statements for the provers. Each docstring names the rule it formalises. Where a statement names the next state it
names it whole, so that every field it does not mention is unchanged. -/

open Sys2Proof Sys2Proof.Machine

/-! ### Encoding -/

/-- Decoding an encoded well-formed instruction gives it back, in every build and for every operand (R62, R74, R75). The model's
raw form of a CMD: log 10. -/
def Obligations.DecodeOfEncode : Prop :=
  ∀ (c : Config) (i : Instr), i.wf c = true → decode c (encode i) = .ok i

/-- What decodes is well-formed, and is the encoding of what it decodes to; a reserved code alone comes with any operands (R42,
R75, R142). The operands of a reserved code are the model's inference: log 12. -/
def Obligations.DecodeAcceptsOnlyEncodings : Prop :=
  ∀ (c : Config) (r : Raw) (i : Instr), decode c r = .ok i →
    i.wf c = true ∧
    (encode i = r ∨ ∃ code args, r = cmd code args ∧ encode i = cmd code [] ∧ (code = 0x0 ∨ 0xB ≤ code.toNat))

/-- The decoder reads each raw form as the row of the opcode table that takes it (R62, R75, R142). -/
def Obligations.DecoderFollowsOpcodeTable : Prop :=
  ∀ (c : Config) (r : Raw) (i : Instr), decode c r = .ok i → selectRow r = some i.mnemonic

/-- Words of every family decode to the instruction they stand for, in the default build (R75, R62). -/
def Obligations.WordsDecode : Prop :=
  decode .default (.cmd ⟨0b0001, [.str 3 [0x66, 0x6F, 0x6F]]⟩) = .ok (.b64enc [0x66, 0x6F, 0x6F]) ∧
  decode .default (.cmd ⟨0b0100, [.timeout (-1)]⟩) = .ok (.pktRecv (-1)) ∧
  decode .default (.cmd ⟨0b0110, [.str 4 [0, 0, 0, 0]]⟩) = .ok (.crcCheck [0, 0, 0, 0]) ∧
  decode .default (.cmd ⟨0b0111, [.bit true, .word 0xFFFFFFFF, .word 1, .str 0 []]⟩) = .ok (.segEnc true 0xFFFFFFFF 1 []) ∧
  decode .default (.cmd ⟨0b1001, []⟩) = .ok .reset ∧
  decode .default (.cmd ⟨0b1101, []⟩) = .ok (.reservedCF 0b01) ∧
  decode .default (.rx 0b00000100) = .ok .rxEnd

/-- Each received byte has a class by its value alone (R62). -/
def Obligations.ReceivedByteClass : Prop :=
  ∀ (c : Config) (b : Byte),
    (b = 0x00 → decode c (.rx b) = .ok .rxStart) ∧
    (b = 0x04 → decode c (.rx b) = .ok .rxEnd) ∧
    (b ≠ 0x00 → b ≠ 0x04 → decode c (.rx b) = .ok (.rxData b))

/-! ### Steps and operation boundaries -/

/-- At an operation boundary, with the HOST about to present a CMD that decodes to `i`, a step is `exec i` in the state in which
the turn has begun and the CMD is taken. What stands around `exec` is the model's choice: logs 5 and 11. -/
def Obligations.StepRunsCommand : Prop :=
  ∀ (s : State) (r : RawCmd) (later : List HostCall) (i : Instr),
    s.op = .idle → s.host.phase = .idle → s.host.calls = .cmd r :: later → decode s.cfg (.cmd r) = .ok i →
    s.beginTurn.turn.powersOn = false →
    step s = exec i { s.beginTurn with host := { s.host with calls := later } }

/-- While PKT_RECV runs and polls, a step is the execution of the oldest waiting byte's instruction, followed by leaving
PACKET_READY, the turn's other polls and its clock test. What stands around `exec` is the model's choice: logs 5 and 6. -/
def Obligations.StepRunsReceivedByte : Prop :=
  ∀ (s : State) (timeout : Int) (t0 n : Nat) (b : Byte) (rest : Bytes) (i : Instr),
    s.op = .receiving timeout t0 → s.beginTurn.turn.polls = n + 1 → s.beginTurn.source = b :: rest →
    decode s.cfg (.rx b) = .ok i → s.beginTurn.turn.powersOn = false →
    step s = mapNext (afterByte n) (exec i { s.beginTurn with source := rest })

/-- A CMD presented while an operation is in progress is not taken: the step leaves the HOST and its calls alone (R210). How a CMD
waits is the model's choice: log 13. -/
def Obligations.CommandWaitsWhileBusy : Prop :=
  ∀ s t : State, s.op ≠ .idle → s.beginTurn.turn.powersOn = false → step s = .next t → t.host = s.host

/-- The block accepts no operation of the HOST while another is in progress: no operation runs, and the model says so by name
(R210). The refusal is the model's choice: log 13. -/
def Obligations.CommandWhileBusyRefused : Prop :=
  ∀ (s : State) (i : Instr) (c : RawCmd), encode i = .cmd c → s.op ≠ .idle → exec i s = .refused .operationInProgress

/-- A reserved command code, whatever operands come with it: no state changes, the result is `illegal = 1`. A code that is not
reserved never decodes to one (R142). That it is reserved with any operands, and that it answers a next state, is the model's
reading: log 12. -/
def Obligations.ReservedCodesAnswerIllegal : Prop :=
  ∀ (s : State) (code : BitVec 4) (args : List Arg), s.op = .idle →
    ((code = 0x0 ∨ 0xB ≤ code.toNat) →
      ∃ i, decode s.cfg (cmd code args) = .ok i ∧ exec i s = .next { s with results := s.results ++ [.illegal] }) ∧
    (¬ (code = 0x0 ∨ 0xB ≤ code.toNat) →
      ∀ i, decode s.cfg (cmd code args) = .ok i →
        i ≠ .reserved0 ∧ i ≠ .reservedB ∧ (∀ low, i ≠ .reservedCF low) ∧
        ∀ t, exec i s = .next t → t.results ≠ s.results ++ [.illegal])

/-- Each reserved constructor completes with `illegal = 1` and changes nothing else (R142). That a reserved code answers a next
state is the model's reading: log 12. -/
def Obligations.ReservedInstructionsComplete : Prop :=
  ∀ (s : State) (low : BitVec 2), s.op = .idle →
    exec .reserved0 s = .next { s with results := s.results ++ [.illegal] } ∧
    exec .reservedB s = .next { s with results := s.results ++ [.illegal] } ∧
    exec (.reservedCF low) s = .next { s with results := s.results ++ [.illegal] }

/-! ### Base64 -/

/-- The default build has the alphabet of R69 in order and the pad `=`; in every legal build `dec6` is the inverse of `enc6` and
undefined on every byte value outside the alphabet. The alphabet is the spec's own choice, from general knowledge (D5). -/
def Obligations.Base64Alphabet : Prop :=
  (List.range 64).map (fun n => enc6 Config.default.b64 (BitVec.ofNat 6 n)) =
    ("ABCDEFGHIJKLMNOPQRSTUVWXYZabcdefghijklmnopqrstuvwxyz0123456789+/".toList.map fun ch => BitVec.ofNat 8 ch.toNat) ∧
  Config.default.b64.pad = 0x3D ∧
  ∀ c : Config, c.wf = true → ∀ (ch : Byte) (i : BitVec 6), dec6 c.b64 ch = some i ↔ enc6 c.b64 i = ch

/-- The text of one group and of the two tails, by arithmetic on the byte values, and texts of whole groups join (R68, R70, R91).
The group layout is the spec's own choice, from general knowledge (D5). -/
def Obligations.B64encGroups : Prop :=
  ∀ (s : State), s.op = .idle →
    (∀ b0 b1 b2 : Byte, ∀ g : Nat, g = 65536 * b0.toNat + 256 * b1.toNat + b2.toNat →
      exec (.b64enc [b0, b1, b2]) s = .next { s with results := s.results ++ [.text
        [enc6 s.cfg.b64 (BitVec.ofNat 6 (g / 262144)), enc6 s.cfg.b64 (BitVec.ofNat 6 (g / 4096 % 64)),
          enc6 s.cfg.b64 (BitVec.ofNat 6 (g / 64 % 64)), enc6 s.cfg.b64 (BitVec.ofNat 6 (g % 64))]] }) ∧
    (∀ b0 b1 : Byte,
      exec (.b64enc [b0, b1]) s = .next { s with results := s.results ++ [.text
        [enc6 s.cfg.b64 (BitVec.ofNat 6 (b0.toNat / 4)), enc6 s.cfg.b64 (BitVec.ofNat 6 (b0.toNat % 4 * 16 + b1.toNat / 16)),
          enc6 s.cfg.b64 (BitVec.ofNat 6 (b1.toNat % 16 * 4)), s.cfg.b64.pad]] }) ∧
    (∀ b0 : Byte,
      exec (.b64enc [b0]) s = .next { s with results := s.results ++ [.text
        [enc6 s.cfg.b64 (BitVec.ofNat 6 (b0.toNat / 4)), enc6 s.cfg.b64 (BitVec.ofNat 6 (b0.toNat % 4 * 16)), s.cfg.b64.pad,
          s.cfg.b64.pad]] }) ∧
    (∀ x y : Bytes, x.length % 3 = 0 →
      exec (.b64enc (x ++ y)) s = .next { s with results := s.results ++ [.text (b64Encode s.cfg.b64 x ++ b64Encode s.cfg.b64 y)] })

/-- B64ENC completes with a text of `4 * ceil(m / 3)` bytes, none of them a delimiter, pads only at the end and only as `m mod 3`
says; different strings have different texts; in every legal build (R92). The spec marks R92 as derived. -/
def Obligations.B64encTextProperties : Prop :=
  ∀ (s : State) (bytes : Bytes), s.cfg.wf = true → s.op = .idle →
    ∃ text, exec (.b64enc bytes) s = .next { s with results := s.results ++ [.text text] } ∧
      text.length = 4 * ((bytes.length + 2) / 3) ∧
      (∀ other, exec (.b64enc other) s = .next { s with results := s.results ++ [.text text] } → other = bytes) ∧
      (∀ b ∈ text, b ≠ 0x00 ∧ b ≠ 0x04) ∧
      ∀ k, text[k]? = some s.cfg.b64.pad ↔
        (k + 1 = text.length ∧ bytes.length % 3 ≠ 0) ∨ (k + 2 = text.length ∧ bytes.length % 3 = 1)

/-- B64DEC of B64ENC gives the bytes back, in every legal build (R95). The spec marks R95 as derived. -/
def Obligations.B64decInvertsB64enc : Prop :=
  ∀ (s : State) (bytes : Bytes), s.cfg.wf = true → s.op = .idle →
    exec (.b64dec (b64Encode s.cfg.b64 bytes)) s = .next { s with results := s.results ++ [.bytes bytes] }

/-- Where the canonical texts stand by position: R93 (a) to (d). -/
def CanonicalByPosition (p : Base64Params) (t : Bytes) : Prop :=
  t.length % 4 = 0 ∧
  (∀ k, k < t.length → (dec6 p (byteAt t k)).isSome = true ∨
    (byteAt t k = p.pad ∧ (k + 1 = t.length ∨ (k + 2 = t.length ∧ byteAt t (k + 1) = p.pad)))) ∧
  (∀ k v, k + 2 = t.length → byteAt t (k + 1) = p.pad → dec6 p (byteAt t k) = some v → v.toNat % 4 = 0) ∧
  (∀ k v, k + 3 = t.length → byteAt t (k + 1) = p.pad → byteAt t (k + 2) = p.pad → dec6 p (byteAt t k) = some v →
    v.toNat % 16 = 0)

/-- In every legal build a text is canonical exactly when it is the text of some byte string, and exactly when it is so by position;
the decoder's own test agrees with both (R93). The spec marks R93 as derived. -/
def Obligations.CanonicalTexts : Prop :=
  ∀ (c : Config) (t : Bytes), c.wf = true →
    ((∃ b, b64Encode c.b64 b = t) ↔ CanonicalByPosition c.b64 t) ∧ (isCanonical c.b64 t = true ↔ ∃ b, b64Encode c.b64 b = t)

/-- B64DEC completes on every text, its result depends in a build on the text alone and is no longer than `floor(3 * len(text) / 4)`
(R94, R96). On a text that is not canonical the result is a free value: log 3. -/
def Obligations.B64decFitsBound : Prop :=
  ∀ (p : Base64Params) (text : Bytes), ∃ bytes : Bytes, bytes.length ≤ 3 * text.length / 4 ∧
    ∀ s : State, s.cfg.b64 = p → s.op = .idle → exec (.b64dec text) s = .next { s with results := s.results ++ [.bytes bytes] }

/-! ### CRC-32 -/

/-- The check value of the parameter set (R120): the CRC of "123456789". The parameter set is the spec's own choice, from general
knowledge (D4). -/
def Obligations.Crc32CheckValue : Prop :=
  ∀ s : State, s.op = .idle → s.cfg.crc = .isoHdlc →
    exec (.crc32 [0x31, 0x32, 0x33, 0x34, 0x35, 0x36, 0x37, 0x38, 0x39]) s =
      .next { s with results := s.results ++ [.crc 0xCBF43926] }

/-- One message bit enters the register: the form of the CRC that takes the message bit by bit. -/
def crcBit (poly : Word32) (crc : Word32) (x : Bool) : Word32 :=
  if (crc.getLsbD 0 ^^ x) = true then (crc >>> 1) ^^^ poly else crc >>> 1

/-- The bits of a byte string, bit 0 of each byte first (R120: input reflected). -/
def bitsOf (bytes : Bytes) : List Bool := bytes.flatMap fun b => (List.range 8).map b.getLsbD

/-- CRC32 is total and equals the form that takes the message one bit at a time, bit 0 of each byte first, from 0xFFFFFFFF, with
the polynomial 0xEDB88320 and the final xor 0xFFFFFFFF; nothing else changes (R121). The parameter set is the spec's own
choice, from general knowledge (D4). -/
def Obligations.Crc32IsBitSerial : Prop :=
  ∀ (s : State) (bytes : Bytes), s.op = .idle → s.cfg.crc = .isoHdlc →
    exec (.crc32 bytes) s = .next { s with
      results := s.results ++ [.crc ((bitsOf bytes).foldl (crcBit 0xEDB88320) 0xFFFFFFFF ^^^ 0xFFFFFFFF)] }

/-- CRC_CHECK compares the CRC-32 of all but the trailing four bytes with the value these spell, least significant byte first, and
answers 0 for fewer than four bytes (R123). -/
def Obligations.CrcCheckComparesTrailer : Prop :=
  ∀ (s : State) (bytes : Bytes), s.op = .idle →
    ∃ v : Bool, exec (.crcCheck bytes) s = .next { s with results := s.results ++ [.checksumValid v] } ∧
      (bytes.length < 4 → v = false) ∧
      ∀ head b0 b1 b2 b3, bytes = head ++ [b0, b1, b2, b3] →
        (v = true ↔
          (crc32 s.cfg.crc head).toNat = b0.toNat + 256 * b1.toNat + 65536 * b2.toNat + 16777216 * b3.toNat)

/-- Changing any single bit of a byte string that passes, in the covered bytes or in the trailer, makes CRC_CHECK answer 0 (R124,
for the parameter set of R120). The spec marks R124 as from general knowledge, not in source. -/
def Obligations.SingleBitDamageDetected : Prop :=
  ∀ (s : State) (bytes : Bytes) (k : Nat), s.op = .idle → s.cfg.crc = .isoHdlc → k < 8 * bytes.length →
    exec (.crcCheck bytes) s = .next { s with results := s.results ++ [.checksumValid true] } →
    exec (.crcCheck (flipBit bytes k)) s = .next { s with results := s.results ++ [.checksumValid false] }

/-! ### Segments -/

/-- `LE32` and `unLE32` by arithmetic, and that they are inverse (R12). -/
def Obligations.LittleEndianFields : Prop :=
  (∀ v : Word32, le32 v =
    [BitVec.ofNat 8 (v.toNat % 256), BitVec.ofNat 8 (v.toNat / 256 % 256), BitVec.ofNat 8 (v.toNat / 65536 % 256),
      BitVec.ofNat 8 (v.toNat / 16777216)]) ∧
  (∀ b0 b1 b2 b3 : Byte, ∀ before after : Bytes,
    (readLe32 (before ++ [b0, b1, b2, b3] ++ after) before.length).toNat =
      b0.toNat + 256 * b1.toNat + 65536 * b2.toNat + 16777216 * b3.toNat) ∧
  ∀ (v : Word32) (before after : Bytes), readLe32 (before ++ le32 v ++ after) before.length = v

/-- SEG_ENC completes with the layout of R63: flag byte 0x00 or 0x01, the two numbers, the data, and the CRC-32 of everything before
the trailer (R63, R64, R131). -/
def Obligations.SegEncLayout : Prop :=
  ∀ (s : State) (isAck : Bool) (sequenceNumber ackNumber : Word32) (data : Bytes), s.op = .idle →
    ∃ out, exec (.segEnc isAck sequenceNumber ackNumber data) s = .next { s with results := s.results ++ [.bytes out] } ∧
      out.length = 13 + data.length ∧
      slice out 0 1 = [if isAck then 0x01 else 0x00] ∧
      slice out 1 5 = le32 sequenceNumber ∧
      slice out 5 9 = le32 ackNumber ∧
      slice out 9 (9 + data.length) = data ∧
      slice out (9 + data.length) (13 + data.length) = le32 (crc32 s.cfg.crc (slice out 0 (9 + data.length)))

/-- SEG_DEC. A byte string that passes the check: the fields by position, `is_ack` from bit 0 of the flag byte alone. Fewer than
13 bytes, or bytes that fail CRC_CHECK: `checksum_valid = 0`, and of the other fields nothing is known, they are one draw
(R132). The draw is a free value, counted by `draws`: the model's choice, log 4. -/
def Obligations.SegDecByPositionOrFailed : Prop :=
  ∀ s : State, s.op = .idle →
    (∀ (flags : Byte) (sequenceNumber ackNumber : Word32) (data head : Bytes),
      head = [flags] ++ le32 sequenceNumber ++ le32 ackNumber ++ data →
      exec (.segDec (head ++ le32 (crc32 s.cfg.crc head))) s = .next { s with
        results := s.results ++ [.segment
          { checksumValid := true
            fields := { isAck := decide (flags.toNat % 2 = 1), sequenceNumber := sequenceNumber, ackNumber := ackNumber,
                        data := data, dataLen := data.length } }] }) ∧
    ∀ bytes : Bytes,
      (bytes.length < 13 ∨
        exec (.crcCheck bytes) s = .next { s with results := s.results ++ [.checksumValid false] }) →
      ∃ fields, exec (.segDec bytes) s = .next { s with
        draws := s.draws + 1, results := s.results ++ [.segment { checksumValid := false, fields := fields }] }

/-- SEG_DEC of SEG_ENC gives the operands back with `checksum_valid = 1` (R135). The spec marks R135 as derived. -/
def Obligations.SegDecInvertsSegEnc : Prop :=
  ∀ (s t : State) (isAck : Bool) (sequenceNumber ackNumber : Word32) (data out : Bytes),
    exec (.segEnc isAck sequenceNumber ackNumber data) s = .next t → t.results = s.results ++ [.bytes out] →
    exec (.segDec out) t = .next { t with
      results := t.results ++ [.segment
        { checksumValid := true
          fields := { isAck := isAck, sequenceNumber := sequenceNumber, ackNumber := ackNumber, data := data,
                      dataLen := data.length } }] }

/-- Every single-bit change of an encoded segment makes SEG_DEC answer `checksum_valid = 0` (R135, for the parameter set of R120).
The spec marks R135 as derived. The other fields are one draw, counted by `draws`: the model's choice, log 4. -/
def Obligations.SegBitDamageDetected : Prop :=
  ∀ (s : State) (isAck : Bool) (sequenceNumber ackNumber : Word32) (data : Bytes) (k : Nat),
    s.op = .idle → s.cfg.crc = .isoHdlc → k < 8 * (13 + data.length) →
    ∃ fields, exec (.segDec (flipBit (encodeSegment s.cfg isAck sequenceNumber ackNumber data) k)) s = .next { s with
      draws := s.draws + 1, results := s.results ++ [.segment { checksumValid := false, fields := fields }] }

/-! ### PKT_SEND -/

/-- PKT_SEND with a sink that accepts the whole packet: exactly START, the text, END are handed over in that order, and the
operation is complete. The parser value is untouched (R108). The sink's credit is the model's choice: log 17. -/
def Obligations.PktSendCompletes : Prop :=
  ∀ (s : State) (bytes : Bytes), s.op = .idle → 2 + 4 * ((bytes.length + 2) / 3) ≤ s.sinkRoom →
    exec (.pktSend bytes) s = .next { s with
      sink := s.sink ++ ([0x00] ++ b64Encode s.cfg.b64 bytes ++ [0x04])
      sinkRoom := s.sinkRoom - (2 + 4 * ((bytes.length + 2) / 3))
      results := s.results ++ [.done] }

/-- PKT_SEND with a sink that accepts less: the accepted bytes are handed over in order and the operation is not complete (R52,
R108). The sink's credit and the operation in progress are the model's choice: logs 1 and 17. -/
def Obligations.PktSendWaitsForSink : Prop :=
  ∀ (s : State) (bytes : Bytes), s.op = .idle → s.sinkRoom < 2 + 4 * ((bytes.length + 2) / 3) →
    exec (.pktSend bytes) s = .next { s with
      op := .sending (([0x00] ++ b64Encode s.cfg.b64 bytes ++ [0x04]).drop s.sinkRoom)
      sink := s.sink ++ ([0x00] ++ b64Encode s.cfg.b64 bytes ++ [0x04]).take s.sinkRoom
      sinkRoom := 0 }

/-- A running PKT_SEND whose sink accepts at least one byte in each of the next turns completes within as many steps as bytes are
left, having handed over exactly those bytes (R108, R221 (c)). Turns and the sink's credit are the model's choice: logs 5 and
17. -/
def Obligations.SendDrainsIntoSink : Prop :=
  ∀ (s : State) (rest : Bytes) (turns later : List Turn),
    s.op = .sending rest → rest ≠ [] → s.agenda = turns ++ later → (∀ t ∈ turns, 1 ≤ t.sinkRoom ∧ t.powersOn = false) →
    rest.length ≤ turns.length →
    ∃ n t, 1 ≤ n ∧ n ≤ rest.length ∧ s.Reaches n t ∧ t.op = .idle ∧ t.sink = s.sink ++ rest ∧ t.results = s.results ++ [.done] ∧
      t.host = s.host ∧ t.pst = s.pst ∧ t.idx = s.idx ∧ t.acc = s.acc

/-- A running PKT_SEND whose sink accepts nothing never gets further: after every one of the turns it is still in progress, with
no byte more on the wire and no CMD taken, and no fault (R215). Turns and the sink's credit are the model's choice: logs 5 and
17. -/
def Obligations.SendHangsOnDeafSink : Prop :=
  ∀ (s : State) (rest : Bytes) (turns later : List Turn),
    s.op = .sending rest → rest ≠ [] → s.sinkRoom = 0 → s.agenda = turns ++ later → (∀ t ∈ turns, t.sinkRoom = 0 ∧ t.powersOn = false) →
    ∃ t, s.Reaches turns.length t ∧ t.op = .sending rest ∧ t.sink = s.sink ∧ t.results = s.results ∧ t.host = s.host

/-! ### The parser step -/

/-- WAITING_FOR_START: START goes to READING with IDX 0; any other byte, 0x04 included, changes nothing (R103). -/
def Obligations.WaitingTakesOnlyStart : Prop :=
  ∀ (s : State) (b : Byte), s.pst = .waitingForStart →
    exec .rxStart s = .next { s with pst := .reading, idx := 0 } ∧
    exec .rxEnd s = .next s ∧
    (b ≠ 0x00 → exec (.rxData b) s = .next s)

/-- READING: END goes to PACKET_READY whether the buffer is full or not, and changes nothing else (R104). -/
def Obligations.ReadingEndsAtEnd : Prop :=
  ∀ s : State, s.pst = .reading → exec .rxEnd s = .next { s with pst := .packetReady }

/-- READING with room: any byte other than END, 0x00 included, is stored at ACC[IDX], every other offset of ACC reads as before, and
IDX goes up by one (R105). -/
def Obligations.ReadingAppends : Prop :=
  ∀ (s : State) (b : Byte), s.pst = .reading → s.idx < s.cfg.rxCap → s.acc.wf = true →
    (∃ acc : Memory, exec .rxStart s = .next { s with acc := acc, idx := s.idx + 1 } ∧
      ∀ a, acc.read a = if a = s.idx then 0x00 else s.acc.read a) ∧
    (b ≠ 0x04 → ∃ acc : Memory, exec (.rxData b) s = .next { s with acc := acc, idx := s.idx + 1 } ∧
      ∀ a, acc.read a = if a = s.idx then b else s.acc.read a)

/-- READING with a full buffer: any byte other than END abandons the text, IDX 0, the byte dropped, even a START (R106). -/
def Obligations.ReadingFullAbandons : Prop :=
  ∀ (s : State) (b : Byte), s.pst = .reading → s.idx = s.cfg.rxCap →
    exec .rxStart s = .next { s with pst := .waitingForStart, idx := 0 } ∧
    (b ≠ 0x04 → exec (.rxData b) s = .next { s with pst := .waitingForStart, idx := 0 })

/-- No parser step is applied in PACKET_READY (R102): the model stops by name there. No run reaches it:
`StepKeepsParserInvariants`. The fault is the model's choice: log 14. -/
def Obligations.NoByteInPacketReady : Prop :=
  ∀ (s : State) (b : Byte), s.pst = .packetReady →
    exec .rxStart s = .fault .parserStepInPacketReady ∧
    exec .rxEnd s = .fault .parserStepInPacketReady ∧
    exec (.rxData b) s = .fault .parserStepInPacketReady

/-! ### PKT_RECV -/

/-- Round trip of framing: the packet of `b`, waiting in the BYTE SOURCE, comes out as `b`, if its text fits the buffer and this
turn polls often enough; what follows the END stays untaken, and ACC changes only where the text stands; in every legal build
(R107, R115). The spec marks R115 as derived; the schedule is the model's choice: log 6. -/
def Obligations.PktRecvReturnsSentPacket : Prop :=
  ∀ (s : State) (b rest : Bytes) (timeout : Int),
    s.cfg.wf = true → s.op = .idle → s.pst = .waitingForStart → s.acc.wf = true → 4 * ((b.length + 2) / 3) ≤ s.cfg.rxCap →
    s.source = [0x00] ++ b64Encode s.cfg.b64 b ++ [0x04] ++ rest → 2 + 4 * ((b.length + 2) / 3) ≤ s.turn.polls →
    ∃ acc : Memory,
      exec (.pktRecv timeout) s = .next { s with
        source := rest, idx := 0, acc := acc
        results := s.results ++ [.packet { payload := b, byteCount := b.length, timedOut := false, wellFormed := true }] } ∧
      ∀ a, acc.read a = if a < 4 * ((b.length + 2) / 3) then byteAt (b64Encode s.cfg.b64 b) a else s.acc.read a

/-- The relation of R109, from every state that meets the invariants: PKT_RECV takes the `k` oldest bytes, one parser step each,
and completes at the first PACKET_READY with a payload of at most RAW_CAP bytes, or times out, or is still in progress. In the
second and third case no byte taken reached PACKET_READY, and it times out only when `timeout >= 0` (R97, R107, R109, R111). The
schedule, and an operation that outlasts the step, are the model's choice: logs 1 and 6. -/
def Obligations.PktRecvFollowsRelation : Prop :=
  ∀ (s : State) (timeout : Int), s.Inv → s.op = .idle →
    ∃ (t : State) (k : Nat), exec (.pktRecv timeout) s = .next t ∧ k ≤ s.source.length ∧
      ∀ p : Nat → State, (p = fun j => parseBytes (s.source.take j) s) →
      (∀ j, j < k → (p j).pst ≠ .packetReady) ∧
      ((1 ≤ k ∧ (p k).pst = .packetReady ∧ (b64Decode s.cfg.b64 (p k).text).length ≤ s.cfg.rawCap ∧
          t = { p k with
            source := s.source.drop k, pst := .waitingForStart, idx := 0
            results := s.results ++ [.packet
              { payload := b64Decode s.cfg.b64 (p k).text, byteCount := (b64Decode s.cfg.b64 (p k).text).length,
                timedOut := false, wellFormed := true }] }) ∨
       (0 ≤ timeout ∧ (p k).pst ≠ .packetReady ∧
          t = { p k with
            source := s.source.drop k
            results := s.results ++ [.packet
              { payload := (p k).text, byteCount := (p k).idx, timedOut := true, wellFormed := false }] }) ∨
       ((p k).pst ≠ .packetReady ∧ t = { p k with source := s.source.drop k, op := .receiving timeout s.clock }))

/-- The frame of PKT_RECV: nothing outside the parser value, the BYTE SOURCE, the result and the operation in progress changes. The
BYTE SOURCE loses some of its oldest bytes, the bytes of ACC beyond RX_CAP do not exist before or after, and either the operation
has ended with one Packet record more, or it is in progress with no record more (R33). The spec marks R33 as derived; an operation
that outlasts the step is the model's choice: log 1. -/
def Obligations.PktRecvFrame : Prop :=
  ∀ (s t : State) (timeout : Int), exec (.pktRecv timeout) s = .next t →
    t.cfg = s.cfg ∧ t.sink = s.sink ∧ t.sinkRoom = s.sinkRoom ∧ t.clock = s.clock ∧ t.host = s.host ∧ t.turn = s.turn ∧
      t.agenda = s.agenda ∧ t.draws = s.draws ∧ (∃ k, t.source = s.source.drop k) ∧
      ((t.op = .idle ∧ ∃ p : Packet, t.results = s.results ++ [.packet p]) ∨
        (t.op = .receiving timeout s.clock ∧ t.results = s.results)) ∧
      (s.acc.wf = true → ∀ a, s.cfg.rxCap ≤ a → t.acc.read a = s.acc.read a)

/-- With a negative timeout no step of a running PKT_RECV ends it as timed out: it goes on, or it completes (R109). The schedule
is the model's choice: log 6. -/
def Obligations.NegativeWaitNeverTimesOut : Prop :=
  ∀ (s t : State) (timeout : Int) (t0 : Nat), s.op = .receiving timeout t0 → timeout < 0 →
    s.beginTurn.turn.powersOn = false → step s = .next t →
    (t.op = .receiving timeout t0 ∧ t.results = s.results) ∨
    (t.op = .idle ∧ ∃ p : Packet, t.results = s.results ++ [.packet p] ∧ p.timedOut = false ∧ p.wellFormed = true)

/-- The timed-out outcome: the accumulated text as it stands, undecoded, `timed_out = 1`, `well_formed = 0`, and the parser value
exactly as it is; for a running PKT_RECV that takes no byte in the turn and whose `(now() - t0) mod 2^CLOCK_W` has reached the
bound, and for one of zero milliseconds at once (R110, R111). When a turn polls and tests the CLOCK is the model's choice: log 6. -/
def Obligations.TimedOutKeepsParserValue : Prop :=
  (∀ (s : State) (timeout : Int) (t0 : Nat), s.op = .receiving timeout t0 → s.pst ≠ .packetReady →
    s.beginTurn.turn.powersOn = false → s.beginTurn.turn.polls = 0 ∨ s.beginTurn.source = [] →
    s.beginTurn.turn.testsClock = true → 0 ≤ timeout →
    timeout ≤ ((s.beginTurn.clock : Int) - (t0 : Int)) % ((2 ^ s.cfg.clockW : Nat) : Int) →
    step s = .next { s.beginTurn with
      op := .idle
      results := s.results ++ [.packet { payload := s.text, byteCount := s.idx, timedOut := true, wellFormed := false }] }) ∧
  ∀ s : State, s.op = .idle → s.pst ≠ .packetReady → s.turn.polls = 0 → s.turn.testsClock = true →
    exec (.pktRecv 0) s = .next { s with
      results := s.results ++ [.packet { payload := s.text, byteCount := s.idx, timedOut := true, wellFormed := false }] }

/-- If the byte just taken completes the packet, the operation ends as complete, whatever the clock says (R112). The spec marks
R112 as derived; the schedule is the model's choice: log 6. -/
def Obligations.CompletionWinsOverTimeout : Prop :=
  ∀ (s : State) (timeout : Int) (t0 n : Nat) (rest : Bytes),
    s.op = .receiving timeout t0 → s.pst = .reading → s.beginTurn.turn.polls = n + 1 → s.beginTurn.source = 0x04 :: rest →
    s.beginTurn.turn.powersOn = false →
    step s = .next { s.beginTurn with
      op := .idle, source := rest, pst := .waitingForStart, idx := 0
      results := s.results ++ [.packet
        { payload := b64Decode s.cfg.b64 s.text, byteCount := (b64Decode s.cfg.b64 s.text).length, timedOut := false,
          wellFormed := true }] }

/-- Continuation across operations: text accumulated before and text taken now join into one packet, and ACC changes only where the
new text stands (R113). The schedule is the model's choice: log 6. -/
def Obligations.RecvContinuesPartialText : Prop :=
  ∀ (s : State) (more rest : Bytes) (timeout : Int),
    s.Inv → s.op = .idle → s.pst = .reading → (∀ b ∈ more, b ≠ 0x04) → s.idx + more.length ≤ s.cfg.rxCap →
    s.source = more ++ [0x04] ++ rest → more.length < s.turn.polls →
    ∃ acc : Memory,
      exec (.pktRecv timeout) s = .next { s with
        source := rest, pst := .waitingForStart, idx := 0, acc := acc
        results := s.results ++ [.packet
          { payload := b64Decode s.cfg.b64 (s.text ++ more), byteCount := (b64Decode s.cfg.b64 (s.text ++ more)).length,
            timedOut := false, wellFormed := true }] } ∧
      ∀ a, acc.read a = if s.idx ≤ a ∧ a < s.idx + more.length then byteAt more (a - s.idx) else s.acc.read a

/-- A PKT_RECV with `timeout >= 0` ends in the step in which its bound has passed and its clock test is made (R109, R221 (a)). The
schedule is the model's choice: log 6. -/
def Obligations.BoundedWaitEnds : Prop :=
  ∀ (s : State) (timeout : Int) (t0 : Nat), s.Inv → s.op = .receiving timeout t0 → 0 ≤ timeout →
    s.beginTurn.turn.powersOn = false → s.beginTurn.turn.testsClock = true →
    timeout ≤ ((s.beginTurn.clock : Int) - (t0 : Int)) % ((2 ^ s.cfg.clockW : Nat) : Int) →
    ∃ t p, step s = .next t ∧ t.op = .idle ∧ t.results = s.results ++ [.packet p]

/-- A packet whose text is longer than the buffer leaves no trace: a PKT_RECV that takes the whole of it, in the step that issues the
operation or in a later one, ends with no result and no flag, the parser waits for the next START and the operation goes on; of the
text only the first RX_CAP bytes stand in ACC, and the rest of ACC is as before (R106, R114, R176). The clock test finds no bound
passed, or is not made. The schedule is the model's choice: log 6; an operation that outlasts the step: log 1. -/
def Obligations.OversizedPacketLeavesNoTrace : Prop :=
  ∀ (s : State) (b rest : Bytes) (timeout : Int),
    s.Inv → s.pst = .waitingForStart → s.cfg.rxCap < 4 * ((b.length + 2) / 3) →
    ∃ acc : Memory,
      (∀ a, acc.read a = if a < s.cfg.rxCap then byteAt (b64Encode s.cfg.b64 b) a else s.acc.read a) ∧
      (s.op = .idle → s.source = [0x00] ++ b64Encode s.cfg.b64 b ++ [0x04] ++ rest →
        s.turn.polls = 2 + 4 * ((b.length + 2) / 3) → (s.turn.testsClock = true → timeout ≠ 0) →
        exec (.pktRecv timeout) s = .next { s with source := rest, acc := acc, op := .receiving timeout s.clock }) ∧
      ∀ t0 : Nat, s.op = .receiving timeout t0 → s.beginTurn.source = [0x00] ++ b64Encode s.cfg.b64 b ++ [0x04] ++ rest →
        s.beginTurn.turn.polls = 2 + 4 * ((b.length + 2) / 3) → s.beginTurn.turn.powersOn = false →
        (s.beginTurn.turn.testsClock = true → timeout < 0 ∨
          ((s.beginTurn.clock : Int) - (t0 : Int)) % ((2 ^ s.cfg.clockW : Nat) : Int) < timeout) →
        step s = .next { s.beginTurn with source := rest, acc := acc }

/-! ### RESET, STATUS and the state after reset -/

/-- RESET: PST and IDX are cleared, ACC is kept, and nothing else changes, the BYTE SOURCE and the HOST's counters included; power-on
has the same effect on the block (R140). -/
def Obligations.ResetClearsParser : Prop :=
  ∀ s : State, s.op = .idle →
    exec .reset s = .next { s with pst := .waitingForStart, idx := 0, results := s.results ++ [.done] } ∧
    ∀ t, exec .reset s = .next t → t.pst = s.powerOn.pst ∧ t.idx = s.powerOn.idx ∧ t.acc = s.powerOn.acc ∧ t.op = s.powerOn.op

/-- A power-on interrupts whatever is in progress: no operation is left, the parser value is cleared, the HOST's counters are
0xFFFFFFFF, bytes in the BYTE SOURCE wait on, and the part of a packet already on the wire stays there (R201, R202, R203).
That power-on is a turn, and what it leaves outside the block, is the model's choice: log 19. -/
def Obligations.PowerOnInterrupts : Prop :=
  ∀ s : State, s.beginTurn.turn.powersOn = true →
    ∃ t, step s = .next t ∧ t.op = .idle ∧ t.pst = .waitingForStart ∧ t.idx = 0 ∧
      t.host.lastDelivered = 0xFFFFFFFF ∧ t.host.lastAcknowledged = 0xFFFFFFFF ∧ t.host.phase = .idle ∧
      t.source = s.source ++ s.beginTurn.turn.arrivals ∧ t.sink = s.sink ∧ t.results = s.results ∧
      t.host.calls = s.host.calls ∧ t.host.returns = s.host.returns

/-- STATUS: PST in bits 1..0, IDX in bits 15..2; at an operation boundary PST reads 0 or 1, and where it reads 0 so does IDX; nothing
else changes (R29, R141). -/
def Obligations.StatusShowsParserValue : Prop :=
  ∀ s : State, s.Inv → s.op = .idle →
    ∃ v : BitVec 16, exec .status s = .next { s with results := s.results ++ [.status v] } ∧
      v.toNat = 4 * s.idx + s.pst.code.toNat ∧ v.toNat % 4 ≤ 1 ∧ (v.toNat % 4 = 0 → v = 0)

/-- The state after reset: the parser value, no operation in progress, and the HOST's counters (R32, R201). That no operation is in
progress is R201, which the spec marks as derived from R32. -/
def Obligations.StateAfterReset : Prop :=
  State.reset.pst = .waitingForStart ∧ State.reset.idx = 0 ∧ State.reset.op = .idle ∧
    State.reset.host.lastDelivered = 0xFFFFFFFF ∧ State.reset.host.lastAcknowledged = 0xFFFFFFFF

/-- The state after reset meets the invariants of R24 and of R150. The spec marks R24 as derived; the values of the other fields
at reset are the model's: logs 2, 7 and 16. -/
def Obligations.ResetMeetsInvariants : Prop := State.reset.Inv ∧ State.reset.host.Inv

/-! ### Every step -/

/-- Every step keeps the invariants of the parser value (R24), in every build, with ACC in canonical form and confined to RX_CAP, and
the CLOCK within CLOCK_W bits (R183). The spec marks R24 as derived; the canonical form is the model's. -/
def Obligations.StepKeepsParserInvariants : Prop := ∀ s t : State, s.Inv → step s = .next t → t.Inv

/-- No operation traps, aborts or faults (R170): from every state that meets the invariants no step answers a fault. The one fault
the model has is its own choice: log 14. -/
def Obligations.NoStepFaults : Prop := ∀ (s : State) (r : Fault), s.Inv → step s ≠ .fault r

/-- Every step keeps the build; a byte accepted by the sink, a result record and a returned value are never taken back (R8, R34,
R47). That the build is a field no step writes is the model's choice, log 2, and so are the lists of results and returns: logs 15
and 16. -/
def Obligations.StepOnlyAppends : Prop :=
  ∀ s t : State, step s = .next t →
    t.cfg = s.cfg ∧ s.sink <+: t.sink ∧ s.results <+: t.results ∧ s.host.returns <+: t.host.returns

/-- The BYTE SOURCE is first in, first out: a step takes some number of the oldest bytes and nothing else; none is invented, none
skipped, and none is taken unless a PKT_RECV runs in that step (R47, R56, R109). Turns are the model's choice: log 5. -/
def Obligations.SourceInOrder : Prop :=
  ∀ s t : State, step s = .next t →
    ∃ k, t.source = (s.source ++ s.beginTurn.turn.arrivals).drop k ∧
      (k = 0 ∨ (∃ timeout t0, s.op = .receiving timeout t0) ∨ (∃ timeout t0, t.op = .receiving timeout t0) ∨
        ∃ p, t.results = s.results ++ [.packet p])

/-! ### The HOST's transport protocol -/

/-- Every step keeps the invariant of the HOST's counters: the number `send_data` works on is `last_delivered + 1`, the number
`receive_data` is about to deliver is `last_acknowledged + 1` (R150). Where the HOST stands is the model's choice: log 16. -/
def Obligations.StepKeepsCounterInvariant : Prop := ∀ s t : State, s.host.Inv → step s = .next t → t.host.Inv

/-- A step moves a counter only by exactly 1, modulo 2^32: `last_delivered` as `send_data` returns, `last_acknowledged` as
`receive_data` or `receive_string` returns what it received; or it sets it to 0xFFFFFFFF, at a power-on or as the HOST, standing in
none of its procedures, starts a session (R150, R155, R203). Where the HOST stands, its calls, and power-on are the model's choice:
logs 16 and 19. -/
def Obligations.CountersAdvanceByOne : Prop :=
  ∀ s t : State, s.host.Inv → step s = .next t →
    (t.host.lastDelivered = s.host.lastDelivered ∨
      (t.host.lastDelivered = s.host.lastDelivered + 1 ∧ t.host.returns = s.host.returns ++ [.sent]) ∨
      (s.StartsSession ∧ t.host.lastDelivered = 0xFFFFFFFF)) ∧
    (t.host.lastAcknowledged = s.host.lastAcknowledged ∨
      (t.host.lastAcknowledged = s.host.lastAcknowledged + 1 ∧ ∃ v, t.host.returns = s.host.returns ++ [v] ∧
        ((∃ value buffer, v = .received value buffer) ∨ (∃ text, v = .string text) ∨ v = .stringTooLong)) ∨
      (s.StartsSession ∧ t.host.lastAcknowledged = 0xFFFFFFFF))

/-- `send_data` move by move: PKT_SEND of the segment as SEG_ENC gave it, then PKT_RECV ACK_TIMEOUT_MS, then SEG_DEC of a completed
packet's payload (R151); how it sorts a reply, the four rows of R152 in order; and after the acknowledgement of a duplicate it sends
its segment again. The HOST's phases are the model's choice: log 16. -/
def Obligations.SendDataSortsReplies : Prop :=
  ∀ (s : State) (q : Word32) (seg : Bytes), s.op = .idle → s.beginTurn.turn.powersOn = false →
    (s.host.phase = .sendEncoding q → s.results.getLast? = some (.bytes seg) →
      step s = runRaw (encode (.pktSend seg)) { s.beginTurn with host := { s.host with phase := .sendSending q seg } }) ∧
    (s.host.phase = .sendSending q seg →
      step s = runRaw (encode (.pktRecv s.cfg.ackTimeoutMs))
        { s.beginTurn with host := { s.host with phase := .sendWaiting q seg } }) ∧
    (∀ p : Packet, s.host.phase = .sendWaiting q seg → s.results.getLast? = some (.packet p) →
      (p.timedOut = true ∨ p.wellFormed = false →
        step s = runRaw (encode (.pktSend seg)) { s.beginTurn with host := { s.host with phase := .sendSending q seg } }) ∧
      (p.timedOut = false → p.wellFormed = true →
        step s = runRaw (encode (.segDec p.payload))
          { s.beginTurn with host := { s.host with phase := .sendDecoding q seg } })) ∧
    (∀ r : Segment, s.host.phase = .sendDecoding q seg → s.results.getLast? = some (.segment r) →
      (r.checksumValid = false →
        step s = runRaw (encode (.pktSend seg)) { s.beginTurn with host := { s.host with phase := .sendSending q seg } }) ∧
      (r.checksumValid = true → r.fields.isAck = true → r.fields.ackNumber = q →
        step s = .next { s.beginTurn with
          host := { s.host with phase := .idle, lastDelivered := q, returns := s.host.returns ++ [.sent] } }) ∧
      (r.checksumValid = true → r.fields.isAck = false → r.fields.sequenceNumber = s.host.lastAcknowledged →
        step s = runRaw (encode (.segEnc true s.host.lastDelivered s.host.lastAcknowledged []))
          { s.beginTurn with host := { s.host with phase := .ackEncoding (.resend q seg) } }) ∧
      (r.checksumValid = true → (r.fields.isAck = true → r.fields.ackNumber ≠ q) →
        (r.fields.isAck = false → r.fields.sequenceNumber ≠ s.host.lastAcknowledged) →
        step s = runRaw (encode (.pktSend seg)) { s.beginTurn with host := { s.host with phase := .sendSending q seg } })) ∧
    (s.host.phase = .ackSending (.resend q seg) →
      step s = runRaw (encode (.pktSend seg)) { s.beginTurn with host := { s.host with phase := .sendSending q seg } })

/-- `receive_data` move by move: SEG_DEC of a completed packet's payload, and PKT_RECV -1 again after one that timed out or is not well
formed (R153, R212); how it sorts a decoded packet (R153): the expected segment is acknowledged and will be delivered, a duplicate is
acknowledged again and not delivered, anything else is discarded and the wait goes on; an acknowledgement is PKT_SEND of the segment
as SEG_ENC gave it (R154), and after a duplicate's the wait goes on. The HOST's phases are the model's choice: log 16. -/
def Obligations.ReceiveDataSortsSegments : Prop :=
  ∀ (s : State) (r : Receiver), s.op = .idle → s.beginTurn.turn.powersOn = false →
    (∀ p : Packet, s.host.phase = .recvWaiting r → s.results.getLast? = some (.packet p) →
      (p.timedOut = true ∨ p.wellFormed = false →
        step s = runRaw (encode (.pktRecv (-1))) { s.beginTurn with host := { s.host with phase := .recvWaiting r } }) ∧
      (p.timedOut = false → p.wellFormed = true →
        step s = runRaw (encode (.segDec p.payload)) { s.beginTurn with host := { s.host with phase := .recvDecoding r } })) ∧
    (∀ g : Segment, s.host.phase = .recvDecoding r → s.results.getLast? = some (.segment g) →
      (g.checksumValid = true → g.fields.isAck = false → g.fields.sequenceNumber = s.host.lastAcknowledged + 1 →
        step s = runRaw (encode (.segEnc true s.host.lastDelivered g.fields.sequenceNumber []))
          { s.beginTurn with host := { s.host with
              phase := .ackEncoding (.deliver g.fields.sequenceNumber g.fields.data g.fields.dataLen r) } }) ∧
      (g.checksumValid = true → g.fields.isAck = false → g.fields.sequenceNumber = s.host.lastAcknowledged →
        step s = runRaw (encode (.segEnc true s.host.lastDelivered s.host.lastAcknowledged []))
          { s.beginTurn with host := { s.host with phase := .ackEncoding (.awaitMore r) } }) ∧
      ((g.checksumValid = true → g.fields.isAck = false →
          g.fields.sequenceNumber ≠ s.host.lastAcknowledged + 1 ∧ g.fields.sequenceNumber ≠ s.host.lastAcknowledged) →
        step s = runRaw (encode (.pktRecv (-1))) { s.beginTurn with host := { s.host with phase := .recvWaiting r } })) ∧
    (∀ (next : AfterAck) (seg : Bytes), s.host.phase = .ackEncoding next → s.results.getLast? = some (.bytes seg) →
      step s = runRaw (encode (.pktSend seg)) { s.beginTurn with host := { s.host with phase := .ackSending next } }) ∧
    (s.host.phase = .ackSending (.awaitMore r) →
      step s = runRaw (encode (.pktRecv (-1))) { s.beginTurn with host := { s.host with phase := .recvWaiting r } })

/-- What `receive_data` and `receive_string` return once the acknowledgement is sent: exactly as long as the buffer succeeds and fills
it; longer reports OVERFLOW_SENTINEL with the truncated prefix, or the string's failure; and `last_acknowledged` advances either way
(R153, R156, R157). The HOST's phases and returns are the model's choice: log 16. -/
def Obligations.DeliveryReturns : Prop :=
  ∀ (s : State) (number : Word32) (data : Bytes) (r : Receiver), s.op = .idle → s.beginTurn.turn.powersOn = false →
    s.host.phase = .ackSending (.deliver number data data.length r) →
    step s = .next { s.beginTurn with host := { s.host with
      phase := .idle
      lastAcknowledged := number
      returns := s.host.returns ++ [match r with
        | .data maxBytes =>
          if data.length ≤ maxBytes then .received data.length data
          else .received s.cfg.overflowSentinel (data.take maxBytes)
        | .string => if data.length ≤ s.cfg.msgMax then .string data else .stringTooLong] } }

/-- The operation each procedure of the HOST begins with: `send_ack` SEG_ENC of an ack segment with the local `last_delivered`,
`send_data` and `send_string` SEG_ENC of a data segment numbered `last_delivered + 1` with DATA_ACK_FIELD, `receive_data` and
`receive_string` PKT_RECV -1; a RESET that means a new session sets both counters to 0xFFFFFFFF, and so does the HOST without a RESET,
before one or after it (R150, R151, R153, R154, R156, R158, R159, R203). The HOST's phases and calls are the model's choice: log 16. -/
def Obligations.ProceduresBegin : Prop :=
  ∀ (s : State) (call : HostCall) (later : List HostCall), s.op = .idle → s.beginTurn.turn.powersOn = false →
    s.host.phase = .idle → s.host.calls = call :: later →
    step s = match call with
      | .cmd c => runRaw (.cmd c) { s.beginTurn with host := { s.host with calls := later } }
      | .resetCounters =>
        .next { s.beginTurn with
          host := { s.host with calls := later, lastDelivered := 0xFFFFFFFF, lastAcknowledged := 0xFFFFFFFF } }
      | .newSession =>
        .next { s.beginTurn with
          pst := .waitingForStart, idx := 0, results := s.results ++ [.done]
          host := { s.host with calls := later, lastDelivered := 0xFFFFFFFF, lastAcknowledged := 0xFFFFFFFF } }
      | .sendAck number =>
        runRaw (encode (.segEnc true s.host.lastDelivered number []))
          { s.beginTurn with host := { s.host with calls := later, phase := .ackEncoding .finish } }
      | .sendData bytes ackField =>
        runRaw (encode (.segEnc false (s.host.lastDelivered + 1) (s.cfg.dataAckField.getD ackField) bytes))
          { s.beginTurn with host := { s.host with calls := later, phase := .sendEncoding (s.host.lastDelivered + 1) } }
      | .receiveData maxBytes =>
        runRaw (encode (.pktRecv (-1)))
          { s.beginTurn with host := { s.host with calls := later, phase := .recvWaiting (.data maxBytes) } }
      | .sendString text ackField =>
        runRaw (encode (.segEnc false (s.host.lastDelivered + 1) (s.cfg.dataAckField.getD ackField) text))
          { s.beginTurn with host := { s.host with calls := later, phase := .sendEncoding (s.host.lastDelivered + 1) } }
      | .receiveString =>
        runRaw (encode (.pktRecv (-1)))
          { s.beginTurn with host := { s.host with calls := later, phase := .recvWaiting .string } }

/-- `send_ack(number)` from call to return, in three steps: the 22 wire bytes of the ack segment that carries the local
`last_delivered` and `number` reach the sink, no counter changes, and the procedure returns (R154). The HOST's phases and the
turns are the model's choice: logs 5, 16 and 17. -/
def Obligations.SendAckReachesWire : Prop :=
  ∀ (s : State) (number : Word32) (calls : List HostCall) (t1 t2 t3 : Turn) (later : List Turn),
    s.op = .idle → s.cfg.fits 20 = true → s.host.phase = .idle → s.host.calls = .sendAck number :: calls →
    s.agenda = t1 :: t2 :: t3 :: later → t1.powersOn = false → t2.powersOn = false → t3.powersOn = false →
    22 ≤ s.sinkRoom + t1.sinkRoom + t2.sinkRoom →
    ∃ t, s.Reaches 3 t ∧ t.op = .idle ∧
      t.sink = s.sink ++ encodePacket s.cfg.b64 (encodeSegment s.cfg true s.host.lastDelivered number []) ∧
      (encodePacket s.cfg.b64 (encodeSegment s.cfg true s.host.lastDelivered number [])).length = 22 ∧
      t.host = { s.host with calls := calls, returns := s.host.returns ++ [.acked] } ∧
      t.pst = s.pst ∧ t.idx = s.idx ∧ t.acc = s.acc
end

