-- ==== Sys2Proof/Laws/Codec.lean ====
section
/-! SUPPORT. The small lemmas of the pure codecs: `enc6` and `dec6` of a legal code are inverse
and stay clear of the delimiters and the pad (R69),
lengths (R63, R71), the 32-bit fields (R12), and the CRC register as a composition that loses nothing (R121, R122). -/

namespace Sys2Proof.Machine

/-! ### Base64 -/

/-- What `Base64Params.wf` says, part by part. -/
theorem Base64Params.wf_iff {p : Base64Params} : p.wf = true ↔
    p.alphabet.length = 64 ∧ p.alphabet.Nodup ∧ p.pad ∉ p.alphabet ∧
      startByte ∉ p.pad :: p.alphabet ∧ endByte ∉ p.pad :: p.alphabet := by
  simp only [Base64Params.wf, decide_eq_true_eq]; rfl

/-- A legal build has a legal base64 code. -/
theorem Config.b64_wf {c : Config} (h : c.wf = true) : c.b64.wf = true := by
  simp only [Config.wf, Bool.and_eq_true] at h
  exact h.1.1.1.2

/-- A legal build's RX_CAP (R8, R141). -/
theorem Config.rxCap_wf {c : Config} (h : c.wf = true) : 4 ≤ c.rxCap ∧ c.rxCap < 2 ^ 14 := by
  simp only [Config.wf, Bool.and_eq_true, decide_eq_true_eq] at h
  exact h.1.1.1.1

theorem Base64Params.rfc4648_wf : Base64Params.rfc4648.wf = true := by decide +kernel

theorem Config.default_wf : Config.default.wf = true := by decide +kernel

section
variable {p : Base64Params} (hp : p.wf = true)
include hp

theorem enc6_mem (i : BitVec 6) : enc6 p i ∈ p.alphabet := by
  have hl : i.toNat < p.alphabet.length := (Base64Params.wf_iff.mp hp).1 ▸ i.isLt
  simp only [enc6, byteAt, List.getD_eq_getElem?_getD, List.getElem?_eq_getElem hl, Option.getD_some]
  exact List.getElem_mem hl

theorem dec6_eq_some_iff (c : Byte) (i : BitVec 6) : dec6 p c = some i ↔ enc6 p i = c := by
  obtain ⟨hl, hn, _⟩ := Base64Params.wf_iff.mp hp
  have hi : i.toNat < p.alphabet.length := hl ▸ i.isLt
  have he : enc6 p i = p.alphabet[i.toNat] := by
    simp only [enc6, byteAt, List.getD_eq_getElem?_getD, List.getElem?_eq_getElem hi, Option.getD_some]
  rw [he, dec6, Option.map_eq_some_iff]
  constructor
  · rintro ⟨n, hx, rfl⟩
    obtain ⟨hn', h1, _⟩ := List.idxOf?_eq_some_iff.mp hx
    have e : (BitVec.ofNat 6 n).toNat = n := by
      rw [BitVec.toNat_ofNat]; exact Nat.mod_eq_of_lt (by omega)
    simp only [e]
    simpa using h1
  · intro h
    refine ⟨i.toNat, ?_, by simp⟩
    rw [List.idxOf?_eq_some_iff]
    refine ⟨hi, by simpa using h, fun j hj hc => ?_⟩
    have : j = i.toNat := (List.Nodup.getElem_inj_iff hn).mp ((by simpa using hc : p.alphabet[j] = c).trans h.symm)
    omega

theorem dec6_enc6 (i : BitVec 6) : dec6 p (enc6 p i) = some i := (dec6_eq_some_iff hp _ i).mpr rfl

theorem enc6_of_dec6 {c : Byte} {i : BitVec 6} (h : dec6 p c = some i) : enc6 p i = c := (dec6_eq_some_iff hp c i).mp h

theorem enc6_ne_pad (i : BitVec 6) : enc6 p i ≠ p.pad := fun h =>
  (Base64Params.wf_iff.mp hp).2.2.1 (h ▸ enc6_mem hp i)

theorem enc6_ne_start (i : BitVec 6) : enc6 p i ≠ startByte := fun h =>
  (Base64Params.wf_iff.mp hp).2.2.2.1 (.tail _ (h ▸ enc6_mem hp i))

theorem enc6_ne_end (i : BitVec 6) : enc6 p i ≠ endByte := fun h =>
  (Base64Params.wf_iff.mp hp).2.2.2.2 (.tail _ (h ▸ enc6_mem hp i))

theorem pad_ne_start : p.pad ≠ startByte := fun h => (Base64Params.wf_iff.mp hp).2.2.2.1 (h ▸ .head _)

theorem pad_ne_end : p.pad ≠ endByte := fun h => (Base64Params.wf_iff.mp hp).2.2.2.2 (h ▸ .head _)

theorem dec6_pad : dec6 p p.pad = none := by
  cases h : dec6 p p.pad with
  | none => rfl
  | some i => exact absurd (enc6_of_dec6 hp h) (enc6_ne_pad hp i)

end

theorem length_b64Encode (p : Base64Params) : ∀ bytes : Bytes, (b64Encode p bytes).length = b64Length bytes.length
  | [] => rfl
  | [_] => by simp [b64Encode, encodeTail1, b64Length]
  | [_, _] => by simp [b64Encode, encodeTail2, b64Length]
  | b0 :: b1 :: b2 :: rest => by
    rw [b64Encode, List.length_append, length_b64Encode p rest]
    simp only [encodeGroup3, List.length_cons, List.length_nil, b64Length]
    omega

theorem b64Encode_eq_nil {p : Base64Params} {bytes : Bytes} : b64Encode p bytes = [] ↔ bytes = [] := by
  constructor
  · intro h
    have := length_b64Encode p bytes
    rw [h, b64Length] at this
    exact List.eq_nil_of_length_eq_zero (by simp at this; omega)
  · rintro rfl; rfl

theorem isEmpty_b64Encode (p : Base64Params) (bytes : Bytes) : (b64Encode p bytes).isEmpty = bytes.isEmpty := by
  rw [Bool.eq_iff_iff]; simp [b64Encode_eq_nil]

/-- Every byte of a text is an alphabet byte or the pad (R92). -/
theorem mem_b64Encode {p : Base64Params} : ∀ {bytes : Bytes} {c : Byte}, c ∈ b64Encode p bytes → c = p.pad ∨ ∃ i, c = enc6 p i
  | [b0], c, h => by
    simp only [b64Encode, encodeTail1, List.mem_cons, List.not_mem_nil, or_false] at h
    rcases h with h | h | h | h
    · exact .inr ⟨_, h⟩
    · exact .inr ⟨_, h⟩
    · exact .inl h
    · exact .inl h
  | [b0, b1], c, h => by
    simp only [b64Encode, encodeTail2, List.mem_cons, List.not_mem_nil, or_false] at h
    rcases h with h | h | h | h
    · exact .inr ⟨_, h⟩
    · exact .inr ⟨_, h⟩
    · exact .inr ⟨_, h⟩
    · exact .inl h
  | b0 :: b1 :: b2 :: rest, c, h => by
    rw [b64Encode, List.mem_append] at h
    rcases h with h | h
    · simp only [encodeGroup3, List.mem_cons, List.not_mem_nil, or_false] at h
      rcases h with h | h | h | h <;> exact .inr ⟨_, h⟩
    · exact mem_b64Encode h

/-- No text byte is a delimiter (R92 (c)). -/
theorem b64Encode_no_delimiter {p : Base64Params} (hp : p.wf = true) {bytes : Bytes} {c : Byte} (h : c ∈ b64Encode p bytes) : c ≠ startByte ∧ c ≠ endByte := by
  rcases mem_b64Encode h with rfl | ⟨i, rfl⟩
  · exact ⟨pad_ne_start hp, pad_ne_end hp⟩
  · exact ⟨enc6_ne_start hp i, enc6_ne_end hp i⟩

/-- A group stands for at most three bytes. -/
theorem length_decodeGroup_le {p : Base64Params} {isLast : Bool} {c0 c1 c2 c3 : Byte} {out : Bytes}
    (h : decodeGroup p isLast c0 c1 c2 c3 = some out) : out.length ≤ 3 := by
  unfold decodeGroup at h
  repeat' (split at h)
  all_goals (cases h <;> simp)

theorem length_decodeCanonical_le {p : Base64Params} :
    ∀ {t b : Bytes}, decodeCanonical p t = some b → 4 * b.length ≤ 3 * t.length
  | [], b, h => by cases h; simp
  | [_], b, h => by cases h
  | [_, _], b, h => by cases h
  | [_, _, _], b, h => by cases h
  | c0 :: c1 :: c2 :: c3 :: rest, b, h => by
    rw [decodeCanonical] at h
    split at h
    · rename_i front back hf hb
      cases h
      have := length_decodeCanonical_le hb
      have := length_decodeGroup_le hf
      simp only [List.length_append, List.length_cons]
      omega
    · cases h

/-- The result of B64DEC, canonical text or not, is within the bound of R94 and R96. -/
theorem length_b64Decode_le (p : Base64Params) (text : Bytes) : (b64Decode p text).length ≤ 3 * text.length / 4 := by
  unfold b64Decode
  split
  · rename_i hb
    have := length_decodeCanonical_le hb
    omega
  · simp [b64DecodeNonCanonical]

/-- A text within RX_CAP decodes to a payload within RAW_CAP (R97). -/
theorem length_b64Decode_le_rawCap {c : Config} {text : Bytes} (h : text.length ≤ c.rxCap) :
    (b64Decode c.b64 text).length ≤ c.rawCap := by
  have := length_b64Decode_le c.b64 text
  unfold Config.rawCap
  omega

/-! ### 32-bit fields -/

@[simp] theorem length_le32 (v : Word32) : (le32 v).length = 4 := rfl

/-- Every build's byte order is little-endian (R8, R43). -/
@[simp] theorem writeField_eq (o : ByteOrder) (v : Word32) : writeField o v = le32 v := by cases o; rfl
@[simp] theorem readField_eq (o : ByteOrder) (s : Bytes) (a : Nat) : readField o s a = readLe32 s a := by cases o; rfl

theorem byteAt_append_right (before after : Bytes) (i : Nat) : byteAt (before ++ after) (before.length + i) = byteAt after i := by
  simp [byteAt, List.getElem?_append_right]

/-- The field read back where it was laid down (R12, R65). -/
theorem readLe32_append (before s : Bytes) (a : Nat) : readLe32 (before ++ s) (before.length + a) = readLe32 s a := by
  simp only [readLe32, Nat.add_assoc, byteAt_append_right]

theorem readLe32_le32 (v : Word32) (after : Bytes) : readLe32 (le32 v ++ after) 0 = v := by
  simp only [readLe32, byteAt, le32, List.cons_append, List.getD_cons_succ, List.getD_cons_zero]
  ext i hi
  simp only [BitVec.getElem_append, BitVec.getElem_extractLsb']
  split <;> [skip; split <;> [skip; split]] <;> (simp only [BitVec.getElem_eq_testBit_toNat, BitVec.getLsbD]; congr 1; omega)

@[simp] theorem length_segmentHead (o : ByteOrder) (isAck : Bool) (q k : Word32) (data : Bytes) :
    (segmentHead o isAck q k data).length = 9 + data.length := by
  simp [segmentHead]; omega

@[simp] theorem length_withTrailer (c : Config) (head : Bytes) : (withTrailer c head).length = head.length + 4 := by
  simp [withTrailer]

/-! ### CRC-32 -/

theorem crcRegister_append (p : CrcParams) (crc : Word32) (x y : Bytes) :
    crcRegister p crc (x ++ y) = crcRegister p (crcRegister p crc x) y := List.foldl_append

/-- The bit that leaves the register returns in bit 31, so a shift loses nothing. -/
theorem crcShift_injective {p : CrcParams} (hp : p.polyReflected.getLsbD 31 = true) {x y : Word32}
    (h : crcShift p x = crcShift p y) : x = y := by
  have top : ∀ z : Word32, (crcShift p z).getLsbD 31 = z.getLsbD 0 := by
    intro z; unfold crcShift; split <;> simp_all
  have h0 : x.getLsbD 0 = y.getLsbD 0 := by rw [← top x, ← top y, h]
  have hs : x >>> 1 = y >>> 1 := by
    unfold crcShift at h
    rw [h0] at h
    split at h
    · exact (BitVec.xor_left_inj _).mp h
    · exact h
  ext i hi
  cases i with
  | zero => simpa [BitVec.getLsbD_eq_getElem] using h0
  | succ i =>
    have := congrArg (fun z : Word32 => z.getLsbD i) hs
    simpa [BitVec.getLsbD_ushiftRight, BitVec.getLsbD_eq_getElem, hi, Nat.add_comm] using this

theorem crcShifts_injective {p : CrcParams} (hp : p.polyReflected.getLsbD 31 = true) :
    ∀ (n : Nat) {x y : Word32}, crcShifts p n x = crcShifts p n y → x = y
  | 0, _, _, h => h
  | n + 1, _, _, h => crcShift_injective hp (crcShifts_injective hp n h)

end Sys2Proof.Machine
end

