-- ==== Sys2Proof/Laws/Memory.lean ====
section
/-! SUPPORT. The laws of the byte space ACC: a read after a write, a write leaves every other offset alone, every write keeps the
canonical form, and canonical memories that read alike are equal. -/

namespace Sys2Proof.Machine

namespace Memory

theorem wfFrom_mono {lo lo' : Nat} (h : lo' ≤ lo) : ∀ {m : Memory}, wfFrom lo m = true → wfFrom lo' m = true
  | [], _ => rfl
  | (k, v) :: rest, hm => by
    simp only [wfFrom, Bool.and_eq_true, decide_eq_true_eq] at hm ⊢
    exact ⟨⟨by omega, hm.1.2⟩, hm.2⟩

/-- Below the first listed offset everything reads as unwritten. -/
theorem read_below {lo a : Nat} (h : a < lo) : ∀ {m : Memory}, wfFrom lo m = true → read m a = unwritten
  | [], _ => rfl
  | (k, v) :: rest, hm => by
    simp only [wfFrom, Bool.and_eq_true, decide_eq_true_eq] at hm
    rw [read, if_neg (by omega)]
    exact read_below (lo := k + 1) (by omega) hm.2

theorem wfFrom_cons {lo a : Nat} {b : Byte} {m : Memory} (h : lo ≤ a) (hm : wfFrom (a + 1) m = true) :
    wfFrom lo (cons a b m) = true := by
  unfold cons
  split
  · exact wfFrom_mono (by omega) hm
  · simp_all [wfFrom]

theorem read_cons {a : Nat} {b : Byte} {m : Memory} (hm : wfFrom (a + 1) m = true) (x : Nat) :
    read (cons a b m) x = if x = a then b else read m x := by
  unfold cons
  by_cases hx : x = a
  · subst hx
    by_cases hb : b = unwritten
    · simp [hb, read_below (Nat.lt_succ_self x) hm]
    · simp [hb, read]
  · by_cases hb : b = unwritten
    · simp [hb, hx]
    · simp [hb, read, hx, Ne.symm hx]

theorem wfFrom_write {a : Nat} {b : Byte} : ∀ {lo : Nat} {m : Memory}, lo ≤ a → wfFrom lo m = true →
    wfFrom lo (write m a b) = true
  | lo, [], h, _ => wfFrom_cons h rfl
  | lo, (k, v) :: rest, h, hm => by
    simp only [wfFrom, Bool.and_eq_true, decide_eq_true_eq] at hm
    unfold write
    split
    · rename_i hk
      simp only [wfFrom, Bool.and_eq_true, decide_eq_true_eq]
      exact ⟨hm.1, wfFrom_write hk hm.2⟩
    · split
      · rename_i hk
        exact wfFrom_cons h (hk ▸ hm.2)
      · refine wfFrom_cons h ?_
        simp only [wfFrom, Bool.and_eq_true, decide_eq_true_eq]
        exact ⟨⟨by omega, hm.1.2⟩, hm.2⟩

theorem read_writeFrom {a : Nat} {b : Byte} (x : Nat) : ∀ {lo : Nat} {m : Memory}, wfFrom lo m = true →
    read (write m a b) x = if x = a then b else read m x
  | _, [], _ => read_cons rfl x
  | lo, (k, v) :: rest, hm => by
    simp only [wfFrom, Bool.and_eq_true, decide_eq_true_eq] at hm
    unfold write
    split
    · rename_i hk
      simp only [read]
      rw [read_writeFrom x hm.2]
      by_cases hx : k = x
      · simp [hx, show x ≠ a by omega]
      · simp [hx]
    · split
      · rename_i hk
        rw [read_cons (hk ▸ hm.2)]
        by_cases hx : x = a
        · simp [hx]
        · simp [hx, read, show k ≠ x by omega]
      · exact read_cons (by simp [wfFrom, hm.1.2, hm.2]; omega) x

/-- Every write keeps the canonical form. -/
theorem wf_write {m : Memory} (a : Nat) (b : Byte) (h : m.wf = true) : (m.write a b).wf = true :=
  wfFrom_write (Nat.zero_le a) h

/-- A read after a write: the byte written there, every other offset as before. -/
theorem read_write {m : Memory} (h : m.wf = true) (a : Nat) (b : Byte) (x : Nat) :
    (m.write a b).read x = if x = a then b else m.read x := read_writeFrom x h

/-- Canonical memories that read alike are equal data. -/
theorem wfFrom_ext : ∀ {lo : Nat} {m n : Memory}, wfFrom lo m = true → wfFrom lo n = true →
    (∀ a, read m a = read n a) → m = n
  | _, [], [], _, _, _ => rfl
  | lo, [], (k, v) :: rest, _, hn, h => by
    have := h k
    simp_all [read, wfFrom]
  | lo, (k, v) :: rest, [], hm, _, h => by
    have := h k
    simp_all [read, wfFrom]
  | lo, (k, v) :: rest, (k', v') :: rest', hm, hn, h => by
    simp only [wfFrom, Bool.and_eq_true, decide_eq_true_eq, bne_iff_ne] at hm hn
    have hk : k = k' := by
      rcases Nat.lt_trichotomy k k' with lt | eq | gt
      · have := h k
        rw [read, if_pos rfl, read, if_neg (by omega), read_below (lo := k' + 1) (by omega) hn.2] at this
        exact absurd this hm.1.2
      · exact eq
      · have := h k'
        rw [read, if_neg (by omega), read_below (lo := k + 1) (by omega) hm.2, read, if_pos rfl] at this
        exact absurd this.symm hn.1.2
    subst hk
    have hv : v = v' := by simpa [read] using h k
    subst hv
    congr 1
    refine wfFrom_ext hm.2 hn.2 fun a => ?_
    by_cases ha : k = a
    · rw [read_below (lo := k + 1) (by omega) hm.2, read_below (lo := k + 1) (by omega) hn.2]
    · simpa [read, ha] using h a

@[simp] theorem length_readPrefix (m : Memory) (n : Nat) : (m.readPrefix n).length = n := by simp [readPrefix]

theorem readPrefix_succ (m : Memory) (n : Nat) : m.readPrefix (n + 1) = m.readPrefix n ++ [m.read n] := by
  simp [readPrefix, List.range_succ]

/-- Writing at the end of a prefix leaves the prefix alone. -/
theorem readPrefix_write {m : Memory} (h : m.wf = true) (n : Nat) (b : Byte) :
    (m.write n b).readPrefix n = m.readPrefix n := by
  unfold readPrefix
  refine List.map_congr_left fun a ha => ?_
  rw [read_write h, if_neg (by have := List.mem_range.mp ha; omega)]

end Memory

end Sys2Proof.Machine
end

