-- ==== Sys2Proof/Laws/State.lean ====
section
/-! SUPPORT. One lemma per field per update of State, true by rfl, so that no proof unfolds a record update. -/

namespace Sys2Proof.Machine

/-! ### State.respond -/

@[simp] theorem State.respond_cfg (r : Result) (s : State) : (s.respond r).cfg = s.cfg := rfl
@[simp] theorem State.respond_pst (r : Result) (s : State) : (s.respond r).pst = s.pst := rfl
@[simp] theorem State.respond_idx (r : Result) (s : State) : (s.respond r).idx = s.idx := rfl
@[simp] theorem State.respond_acc (r : Result) (s : State) : (s.respond r).acc = s.acc := rfl
@[simp] theorem State.respond_op (r : Result) (s : State) : (s.respond r).op = s.op := rfl
@[simp] theorem State.respond_results (r : Result) (s : State) : (s.respond r).results = s.results ++ [r] := rfl
@[simp] theorem State.respond_source (r : Result) (s : State) : (s.respond r).source = s.source := rfl
@[simp] theorem State.respond_sink (r : Result) (s : State) : (s.respond r).sink = s.sink := rfl
@[simp] theorem State.respond_sinkRoom (r : Result) (s : State) : (s.respond r).sinkRoom = s.sinkRoom := rfl
@[simp] theorem State.respond_clock (r : Result) (s : State) : (s.respond r).clock = s.clock := rfl
@[simp] theorem State.respond_host (r : Result) (s : State) : (s.respond r).host = s.host := rfl
@[simp] theorem State.respond_turn (r : Result) (s : State) : (s.respond r).turn = s.turn := rfl
@[simp] theorem State.respond_agenda (r : Result) (s : State) : (s.respond r).agenda = s.agenda := rfl
@[simp] theorem State.respond_draws (r : Result) (s : State) : (s.respond r).draws = s.draws := rfl

/-! ### State.finish -/

@[simp] theorem State.finish_cfg (r : Result) (s : State) : (s.finish r).cfg = s.cfg := rfl
@[simp] theorem State.finish_pst (r : Result) (s : State) : (s.finish r).pst = s.pst := rfl
@[simp] theorem State.finish_idx (r : Result) (s : State) : (s.finish r).idx = s.idx := rfl
@[simp] theorem State.finish_acc (r : Result) (s : State) : (s.finish r).acc = s.acc := rfl
@[simp] theorem State.finish_op (r : Result) (s : State) : (s.finish r).op = .idle := rfl
@[simp] theorem State.finish_results (r : Result) (s : State) : (s.finish r).results = s.results ++ [r] := rfl
@[simp] theorem State.finish_source (r : Result) (s : State) : (s.finish r).source = s.source := rfl
@[simp] theorem State.finish_sink (r : Result) (s : State) : (s.finish r).sink = s.sink := rfl
@[simp] theorem State.finish_sinkRoom (r : Result) (s : State) : (s.finish r).sinkRoom = s.sinkRoom := rfl
@[simp] theorem State.finish_clock (r : Result) (s : State) : (s.finish r).clock = s.clock := rfl
@[simp] theorem State.finish_host (r : Result) (s : State) : (s.finish r).host = s.host := rfl
@[simp] theorem State.finish_turn (r : Result) (s : State) : (s.finish r).turn = s.turn := rfl
@[simp] theorem State.finish_agenda (r : Result) (s : State) : (s.finish r).agenda = s.agenda := rfl
@[simp] theorem State.finish_draws (r : Result) (s : State) : (s.finish r).draws = s.draws := rfl

/-! ### State.drawn -/

@[simp] theorem State.drawn_cfg (s : State) : (s.drawn).cfg = s.cfg := rfl
@[simp] theorem State.drawn_pst (s : State) : (s.drawn).pst = s.pst := rfl
@[simp] theorem State.drawn_idx (s : State) : (s.drawn).idx = s.idx := rfl
@[simp] theorem State.drawn_acc (s : State) : (s.drawn).acc = s.acc := rfl
@[simp] theorem State.drawn_op (s : State) : (s.drawn).op = s.op := rfl
@[simp] theorem State.drawn_results (s : State) : (s.drawn).results = s.results := rfl
@[simp] theorem State.drawn_source (s : State) : (s.drawn).source = s.source := rfl
@[simp] theorem State.drawn_sink (s : State) : (s.drawn).sink = s.sink := rfl
@[simp] theorem State.drawn_sinkRoom (s : State) : (s.drawn).sinkRoom = s.sinkRoom := rfl
@[simp] theorem State.drawn_clock (s : State) : (s.drawn).clock = s.clock := rfl
@[simp] theorem State.drawn_host (s : State) : (s.drawn).host = s.host := rfl
@[simp] theorem State.drawn_turn (s : State) : (s.drawn).turn = s.turn := rfl
@[simp] theorem State.drawn_agenda (s : State) : (s.drawn).agenda = s.agenda := rfl
@[simp] theorem State.drawn_draws (s : State) : (s.drawn).draws = s.draws + 1 := rfl

/-! ### State.clearParser -/

@[simp] theorem State.clearParser_cfg (s : State) : (s.clearParser).cfg = s.cfg := rfl
@[simp] theorem State.clearParser_pst (s : State) : (s.clearParser).pst = .waitingForStart := rfl
@[simp] theorem State.clearParser_idx (s : State) : (s.clearParser).idx = 0 := rfl
@[simp] theorem State.clearParser_acc (s : State) : (s.clearParser).acc = s.acc := rfl
@[simp] theorem State.clearParser_op (s : State) : (s.clearParser).op = s.op := rfl
@[simp] theorem State.clearParser_results (s : State) : (s.clearParser).results = s.results := rfl
@[simp] theorem State.clearParser_source (s : State) : (s.clearParser).source = s.source := rfl
@[simp] theorem State.clearParser_sink (s : State) : (s.clearParser).sink = s.sink := rfl
@[simp] theorem State.clearParser_sinkRoom (s : State) : (s.clearParser).sinkRoom = s.sinkRoom := rfl
@[simp] theorem State.clearParser_clock (s : State) : (s.clearParser).clock = s.clock := rfl
@[simp] theorem State.clearParser_host (s : State) : (s.clearParser).host = s.host := rfl
@[simp] theorem State.clearParser_turn (s : State) : (s.clearParser).turn = s.turn := rfl
@[simp] theorem State.clearParser_agenda (s : State) : (s.clearParser).agenda = s.agenda := rfl
@[simp] theorem State.clearParser_draws (s : State) : (s.clearParser).draws = s.draws := rfl

/-! ### State.underTurn -/

@[simp] theorem State.underTurn_cfg (t : Turn) (s : State) : (s.underTurn t).cfg = s.cfg := rfl
@[simp] theorem State.underTurn_pst (t : Turn) (s : State) : (s.underTurn t).pst = s.pst := rfl
@[simp] theorem State.underTurn_idx (t : Turn) (s : State) : (s.underTurn t).idx = s.idx := rfl
@[simp] theorem State.underTurn_acc (t : Turn) (s : State) : (s.underTurn t).acc = s.acc := rfl
@[simp] theorem State.underTurn_op (t : Turn) (s : State) : (s.underTurn t).op = s.op := rfl
@[simp] theorem State.underTurn_results (t : Turn) (s : State) : (s.underTurn t).results = s.results := rfl
@[simp] theorem State.underTurn_source (t : Turn) (s : State) : (s.underTurn t).source = s.source ++ t.arrivals := rfl
@[simp] theorem State.underTurn_sink (t : Turn) (s : State) : (s.underTurn t).sink = s.sink := rfl
@[simp] theorem State.underTurn_sinkRoom (t : Turn) (s : State) : (s.underTurn t).sinkRoom = s.sinkRoom + t.sinkRoom := rfl
@[simp] theorem State.underTurn_clock (t : Turn) (s : State) : (s.underTurn t).clock = advanceClock s.cfg s.clock t.elapsed := rfl
@[simp] theorem State.underTurn_host (t : Turn) (s : State) : (s.underTurn t).host = s.host := rfl
@[simp] theorem State.underTurn_turn (t : Turn) (s : State) : (s.underTurn t).turn = t := rfl
@[simp] theorem State.underTurn_agenda (t : Turn) (s : State) : (s.underTurn t).agenda = s.agenda := rfl
@[simp] theorem State.underTurn_draws (t : Turn) (s : State) : (s.underTurn t).draws = s.draws := rfl

/-! ### State.powerOn -/

@[simp] theorem State.powerOn_cfg (s : State) : (s.powerOn).cfg = s.cfg := rfl
@[simp] theorem State.powerOn_pst (s : State) : (s.powerOn).pst = .waitingForStart := rfl
@[simp] theorem State.powerOn_idx (s : State) : (s.powerOn).idx = 0 := rfl
@[simp] theorem State.powerOn_acc (s : State) : (s.powerOn).acc = s.acc := rfl
@[simp] theorem State.powerOn_op (s : State) : (s.powerOn).op = .idle := rfl
@[simp] theorem State.powerOn_results (s : State) : (s.powerOn).results = s.results := rfl
@[simp] theorem State.powerOn_source (s : State) : (s.powerOn).source = s.source := rfl
@[simp] theorem State.powerOn_sink (s : State) : (s.powerOn).sink = s.sink := rfl
@[simp] theorem State.powerOn_sinkRoom (s : State) : (s.powerOn).sinkRoom = s.sinkRoom := rfl
@[simp] theorem State.powerOn_clock (s : State) : (s.powerOn).clock = s.clock := rfl
@[simp] theorem State.powerOn_host (s : State) : (s.powerOn).host = s.host.restart := rfl
@[simp] theorem State.powerOn_turn (s : State) : (s.powerOn).turn = s.turn := rfl
@[simp] theorem State.powerOn_agenda (s : State) : (s.powerOn).agenda = s.agenda := rfl
@[simp] theorem State.powerOn_draws (s : State) : (s.powerOn).draws = s.draws := rfl

/-! ### HostState.clearCounters -/

@[simp] theorem HostState.clearCounters_lastDelivered (h : HostState) : h.clearCounters.lastDelivered = 0xFFFFFFFF := rfl
@[simp] theorem HostState.clearCounters_lastAcknowledged (h : HostState) : h.clearCounters.lastAcknowledged = 0xFFFFFFFF := rfl
@[simp] theorem HostState.clearCounters_phase (h : HostState) : h.clearCounters.phase = h.phase := rfl
@[simp] theorem HostState.clearCounters_calls (h : HostState) : h.clearCounters.calls = h.calls := rfl
@[simp] theorem HostState.clearCounters_returns (h : HostState) : h.clearCounters.returns = h.returns := rfl

/-! ### HostState.restart -/

@[simp] theorem HostState.restart_lastDelivered (h : HostState) : h.restart.lastDelivered = 0xFFFFFFFF := rfl
@[simp] theorem HostState.restart_lastAcknowledged (h : HostState) : h.restart.lastAcknowledged = 0xFFFFFFFF := rfl
@[simp] theorem HostState.restart_phase (h : HostState) : h.restart.phase = .idle := rfl
@[simp] theorem HostState.restart_calls (h : HostState) : h.restart.calls = h.calls := rfl
@[simp] theorem HostState.restart_returns (h : HostState) : h.restart.returns = h.returns := rfl

/-! ### beginTurn changes only what the outside owns -/

@[simp] theorem State.beginTurn_cfg (s : State) : s.beginTurn.cfg = s.cfg := by unfold State.beginTurn; split <;> rfl
@[simp] theorem State.beginTurn_pst (s : State) : s.beginTurn.pst = s.pst := by unfold State.beginTurn; split <;> rfl
@[simp] theorem State.beginTurn_idx (s : State) : s.beginTurn.idx = s.idx := by unfold State.beginTurn; split <;> rfl
@[simp] theorem State.beginTurn_acc (s : State) : s.beginTurn.acc = s.acc := by unfold State.beginTurn; split <;> rfl
@[simp] theorem State.beginTurn_op (s : State) : s.beginTurn.op = s.op := by unfold State.beginTurn; split <;> rfl
@[simp] theorem State.beginTurn_results (s : State) : s.beginTurn.results = s.results := by unfold State.beginTurn; split <;> rfl
@[simp] theorem State.beginTurn_sink (s : State) : s.beginTurn.sink = s.sink := by unfold State.beginTurn; split <;> rfl
@[simp] theorem State.beginTurn_host (s : State) : s.beginTurn.host = s.host := by unfold State.beginTurn; split <;> rfl

theorem State.beginTurn_source (s : State) : s.beginTurn.source = s.source ++ s.beginTurn.turn.arrivals := by
  unfold State.beginTurn; split <;> rfl

theorem State.beginTurn_clock (s : State) : s.beginTurn.clock = advanceClock s.cfg s.clock s.beginTurn.turn.elapsed := by
  unfold State.beginTurn; split <;> rfl

theorem State.beginTurn_sinkRoom (s : State) : s.beginTurn.sinkRoom = s.sinkRoom + s.beginTurn.turn.sinkRoom := by
  unfold State.beginTurn; split <;> rfl

/-- A step for which the agenda names the turn. -/
theorem State.beginTurn_cons {s : State} {t : Turn} {later : List Turn} (h : s.agenda = t :: later) :
    s.beginTurn = ({ s with agenda := later } : State).underTurn t := by
  unfold State.beginTurn; rw [h]

end Sys2Proof.Machine
end

