-- ==== Sys2Proof/Laws/Ops.lean ====
section
/-! SUPPORT. What each shared operation can do, said once: the boundary test, the parser step and its frame, the two ends of PKT_RECV,
the polling loop, and the invariants of R24 that they keep. -/

namespace Sys2Proof.Machine

/-! ### Operation boundaries -/

theorem atBoundary_idle {s : State} (h : s.op = .idle) (run : State → Outcome) : atBoundary s run = run s := by
  simp [atBoundary, h]

theorem atBoundary_busy {s : State} (h : s.op ≠ .idle) (run : State → Outcome) :
    atBoundary s run = .refused .operationInProgress := by
  unfold atBoundary; split
  · contradiction
  · rfl

theorem respondWith_idle {s : State} (h : s.op = .idle) (r : Result) : respondWith r s = .next (s.respond r) :=
  atBoundary_idle h _

/-- What an operation that only computes a result can answer next. -/
theorem respondWith_next {r : Result} {s t : State} (h : respondWith r s = .next t) : s.op = .idle ∧ t = s.respond r := by
  by_cases hi : s.op = .idle
  · rw [respondWith_idle hi] at h
    exact ⟨hi, by cases h; rfl⟩
  · rw [respondWith, atBoundary_busy hi] at h
    cases h

/-! ### The parser step -/

/-- The part of the state that the parser and PKT_RECV do not own. -/
def State.outside (s : State) : Config × Bytes × Nat × Nat × HostState × Turn × List Turn × Nat :=
  (s.cfg, s.sink, s.sinkRoom, s.clock, s.host, s.turn, s.agenda, s.draws)

/-- Every case of the parser step (R102): START begins, another byte is discarded, END completes, a byte is appended, the full
buffer is abandoned, and PACKET_READY stays. -/
theorem parserStep_cases (b : Byte) (s : State) :
    (s.pst = .waitingForStart ∧ b = startByte ∧ parserStep b s = { s with pst := .reading, idx := 0 }) ∨
    (s.pst = .waitingForStart ∧ b ≠ startByte ∧ parserStep b s = s) ∨
    (s.pst = .reading ∧ b = endByte ∧ parserStep b s = { s with pst := .packetReady }) ∨
    (s.pst = .reading ∧ b ≠ endByte ∧ s.idx < s.cfg.rxCap ∧
      parserStep b s = { s with acc := s.acc.write s.idx b, idx := s.idx + 1 }) ∨
    (s.pst = .reading ∧ b ≠ endByte ∧ s.cfg.rxCap ≤ s.idx ∧ parserStep b s = s.clearParser) ∨
    (s.pst = .packetReady ∧ parserStep b s = s) := by
  unfold parserStep
  cases h : s.pst with
  | waitingForStart => by_cases hb : b = startByte <;> simp [hb]
  | reading =>
    by_cases hb : b = endByte
    · simp [hb]
    · by_cases hi : s.idx < s.cfg.rxCap
      · simp [hb, hi]
      · simp [hb, hi, Nat.le_of_not_lt hi]
  | packetReady => simp

@[simp] theorem parserStep_outside (b : Byte) (s : State) : (parserStep b s).outside = s.outside := by
  rcases parserStep_cases b s with ⟨_, _, h⟩ | ⟨_, _, h⟩ | ⟨_, _, h⟩ | ⟨_, _, _, h⟩ | ⟨_, _, _, h⟩ | ⟨_, h⟩ <;> (rw [h]; try rfl)

@[simp] theorem parserStep_op (b : Byte) (s : State) : (parserStep b s).op = s.op := by
  rcases parserStep_cases b s with ⟨_, _, h⟩ | ⟨_, _, h⟩ | ⟨_, _, h⟩ | ⟨_, _, _, h⟩ | ⟨_, _, _, h⟩ | ⟨_, h⟩ <;> (rw [h]; try rfl)

@[simp] theorem parserStep_results (b : Byte) (s : State) : (parserStep b s).results = s.results := by
  rcases parserStep_cases b s with ⟨_, _, h⟩ | ⟨_, _, h⟩ | ⟨_, _, h⟩ | ⟨_, _, _, h⟩ | ⟨_, _, _, h⟩ | ⟨_, h⟩ <;> (rw [h]; try rfl)

@[simp] theorem parserStep_source (b : Byte) (s : State) : (parserStep b s).source = s.source := by
  rcases parserStep_cases b s with ⟨_, _, h⟩ | ⟨_, _, h⟩ | ⟨_, _, h⟩ | ⟨_, _, _, h⟩ | ⟨_, _, _, h⟩ | ⟨_, h⟩ <;> (rw [h]; try rfl)

@[simp] theorem parserStep_cfg (b : Byte) (s : State) : (parserStep b s).cfg = s.cfg :=
  congrArg Prod.fst (parserStep_outside b s)

/-- A byte as an instruction: one parser step, outside PACKET_READY. -/
theorem receiveByte_eq {b : Byte} {s : State} (h : s.pst ≠ .packetReady) : receiveByte b s = .next (parserStep b s) := by
  simp [receiveByte, h]

/-- Every class of received byte runs the parser step of its byte. -/
theorem exec_classify (b : Byte) (s : State) : exec (classify b) s = receiveByte b s := by
  unfold classify
  split
  · subst b; rfl
  · split
    · subst b; rfl
    · rfl

/-! ### The ends of PKT_RECV -/

@[simp] theorem complete_outside (s : State) : (complete s).outside = s.outside := rfl
@[simp] theorem timeOut_outside (s : State) : (timeOut s).outside = s.outside := rfl
@[simp] theorem complete_source (s : State) : (complete s).source = s.source := rfl
@[simp] theorem timeOut_source (s : State) : (timeOut s).source = s.source := rfl
@[simp] theorem complete_op (s : State) : (complete s).op = .idle := rfl
@[simp] theorem timeOut_op (s : State) : (timeOut s).op = .idle := rfl
@[simp] theorem complete_results (s : State) :
    (complete s).results = s.results ++ [.packet (completePacket s.cfg.b64 s.text)] := rfl
@[simp] theorem timeOut_results (s : State) :
    (timeOut s).results = s.results ++ [.packet (timedOutPacket s.text)] := rfl

theorem settle_cases (s : State) : (s.pst = .packetReady ∧ settle s = complete s) ∨ (s.pst ≠ .packetReady ∧ settle s = s) := by
  unfold settle; split <;> simp_all

theorem settle_ready {s : State} (h : s.pst = .packetReady) : settle s = complete s := by simp [settle, h]
theorem settle_not_ready {s : State} (h : s.pst ≠ .packetReady) : settle s = s := by simp [settle, h]

@[simp] theorem settle_outside (s : State) : (settle s).outside = s.outside := by
  rcases settle_cases s with ⟨_, h⟩ | ⟨_, h⟩ <;> (rw [h]; try rfl)
@[simp] theorem settle_source (s : State) : (settle s).source = s.source := by
  rcases settle_cases s with ⟨_, h⟩ | ⟨_, h⟩ <;> (rw [h]; try rfl)
@[simp] theorem settle_acc (s : State) : (settle s).acc = s.acc := by
  rcases settle_cases s with ⟨_, h⟩ | ⟨_, h⟩ <;> (rw [h]; try rfl)

/-- The clock test leaves the state alone, or it times out: a bounded wait, its bound passed, and this turn tests the clock. -/
theorem clockTest_cases (s : State) :
    clockTest s = s ∨
    ∃ timeout t0, s.op = .receiving timeout t0 ∧ s.turn.testsClock = true ∧ boundPassed s.cfg s.clock t0 timeout = true ∧
      clockTest s = timeOut s := by
  unfold clockTest
  split
  · rename_i timeout t0 h
    by_cases hb : (s.turn.testsClock && boundPassed s.cfg s.clock t0 timeout) = true
    · exact .inr ⟨timeout, t0, h, by simp_all⟩
    · exact .inl (by simp [hb])
  · exact .inl rfl

@[simp] theorem clockTest_outside (s : State) : (clockTest s).outside = s.outside := by
  rcases clockTest_cases s with h | ⟨_, _, _, _, _, h⟩ <;> (rw [h]; try rfl)
@[simp] theorem clockTest_source (s : State) : (clockTest s).source = s.source := by
  rcases clockTest_cases s with h | ⟨_, _, _, _, _, h⟩ <;> (rw [h]; try rfl)

/-! ### The polling loop -/

/-- One poll that finds a byte. -/
theorem pollLoop_byte {n : Nat} {s : State} {timeout : Int} {t0 : Nat} {b : Byte} {rest : Bytes}
    (ho : s.op = .receiving timeout t0) (hs : s.source = b :: rest) :
    pollLoop (n + 1) s = pollLoop n (settle (parserStep b { s with source := rest })) := by
  rw [pollLoop, ho, hs]

theorem pollLoop_empty {n : Nat} {s : State} (hs : s.source = []) : pollLoop n s = s := by
  cases n with
  | zero => rfl
  | succ n => rw [pollLoop, hs]; split <;> simp_all

/-- A poll with no PKT_RECV running does nothing: an operation that has ended takes no further byte (R107). -/
theorem pollLoop_ended {n : Nat} {s : State} (ho : ∀ timeout t0, s.op ≠ .receiving timeout t0) : pollLoop n s = s := by
  cases n with
  | zero => rfl
  | succ n =>
    rw [pollLoop]; split
    · rename_i h _; exact absurd h (ho _ _)
    · rfl

/-- Whatever every poll keeps, the loop keeps. -/
theorem pollLoop_induct (P : State → Prop)
    (hstep : ∀ (s : State) (b : Byte) (rest : Bytes) (timeout : Int) (t0 : Nat), P s → s.op = .receiving timeout t0 →
      s.source = b :: rest → P (settle (parserStep b { s with source := rest }))) :
    ∀ (n : Nat) (s : State), P s → P (pollLoop n s)
  | 0, _, h => h
  | n + 1, s, h => by
    unfold pollLoop
    split
    · rename_i ho hs
      exact pollLoop_induct P hstep n _ (hstep s _ _ _ _ h ho hs)
    · exact h

@[simp] theorem pollLoop_outside (n : Nat) (s : State) : (pollLoop n s).outside = s.outside :=
  pollLoop_induct (fun t => t.outside = s.outside) (fun u b rest _ _ hu _ _ => by
    rw [settle_outside, parserStep_outside]; exact hu) n s rfl

@[simp] theorem afterByte_outside (n : Nat) (s : State) : (afterByte n s).outside = s.outside := by simp [afterByte]

/-! ### What a running PKT_RECV leaves -/

theorem outside_cfg {s t : State} (h : t.outside = s.outside) : t.cfg = s.cfg := congrArg Prod.fst h
theorem outside_sink {s t : State} (h : t.outside = s.outside) : t.sink = s.sink := congrArg (fun o => o.2.1) h
theorem outside_sinkRoom {s t : State} (h : t.outside = s.outside) : t.sinkRoom = s.sinkRoom := congrArg (fun o => o.2.2.1) h
theorem outside_clock {s t : State} (h : t.outside = s.outside) : t.clock = s.clock := congrArg (fun o => o.2.2.2.1) h
theorem outside_host {s t : State} (h : t.outside = s.outside) : t.host = s.host := congrArg (fun o => o.2.2.2.2.1) h
theorem outside_turn {s t : State} (h : t.outside = s.outside) : t.turn = s.turn := congrArg (fun o => o.2.2.2.2.2.1) h

/-- The parser step neither reads nor writes the operation in progress and the BYTE SOURCE. -/
theorem parserStep_with (b : Byte) (s : State) (o : InProgress) (source : Bytes) :
    parserStep b { s with op := o, source := source } = { parserStep b s with op := o, source := source } := by
  obtain ⟨cfg, pst, idx, acc, op, results, source, sink, room, clock, host, turn, agenda, draws⟩ := s
  cases pst <;> simp only [parserStep]
  · split <;> rfl
  · split
    · rfl
    · split <;> rfl

/-- Leaving PACKET_READY ends the operation with a complete packet, or nothing happens. -/
theorem settle_results (s : State) :
    ((settle s).results = s.results ∧ (settle s).op = s.op) ∨
    ((settle s).op = .idle ∧ ∃ p, (settle s).results = s.results ++ [.packet p] ∧ p.timedOut = false ∧ p.wellFormed = true) := by
  rcases settle_cases s with ⟨_, e⟩ | ⟨_, e⟩ <;> rw [e]
  · exact .inr ⟨rfl, _, rfl, rfl, rfl⟩
  · exact .inl ⟨rfl, rfl⟩

/-- The polls of a running PKT_RECV leave it running without a result, or end it with a complete packet. -/
theorem pollLoop_results (n : Nat) {s : State} {timeout : Int} {t0 : Nat} (ho : s.op = .receiving timeout t0) :
    ((pollLoop n s).op = .receiving timeout t0 ∧ (pollLoop n s).results = s.results) ∨
    ((pollLoop n s).op = .idle ∧
      ∃ p, (pollLoop n s).results = s.results ++ [.packet p] ∧ p.timedOut = false ∧ p.wellFormed = true) := by
  refine pollLoop_induct (fun u => (u.op = .receiving timeout t0 ∧ u.results = s.results) ∨
    (u.op = .idle ∧ ∃ p, u.results = s.results ++ [.packet p] ∧ p.timedOut = false ∧ p.wellFormed = true)) ?_ n s (.inl ⟨ho, rfl⟩)
  rintro v b rest _ _ (⟨hv, hr⟩ | ⟨hv, _⟩) ho' hs
  · rcases settle_results (parserStep b { v with source := rest }) with ⟨h1, h2⟩ | ⟨h2, p, h1, h3, h4⟩
    · exact .inl ⟨h2.trans ((parserStep_op _ _).trans hv), h1.trans ((parserStep_results _ _).trans hr)⟩
    · refine .inr ⟨h2, p, ?_, h3, h4⟩
      rw [h1, parserStep_results]
      exact congrArg (· ++ [Result.packet p]) hr
  · rw [hv] at ho'
    cases ho'

/-- The polls take some number of the oldest bytes, and none unless a PKT_RECV runs. -/
theorem pollLoop_source (n : Nat) (s : State) :
    ∃ k, (pollLoop n s).source = s.source.drop k ∧ (k = 0 ∨ ∃ timeout t0, s.op = .receiving timeout t0) := by
  by_cases h : ∃ timeout t0, s.op = .receiving timeout t0
  · obtain ⟨k, hk⟩ : ∃ k, (pollLoop n s).source = s.source.drop k :=
      pollLoop_induct (fun u => ∃ k, u.source = s.source.drop k) (by
        rintro v b rest _ _ ⟨k, hv⟩ _ hs
        refine ⟨k + 1, ?_⟩
        rw [settle_source, parserStep_source, ← List.drop_drop, ← hv, hs]
        rfl) n s ⟨0, rfl⟩
    exact ⟨k, hk, .inr h⟩
  · exact ⟨0, by rw [pollLoop_ended fun a b e => h ⟨a, b, e⟩]; rfl, .inl rfl⟩

/-- The polls in READING take a text without END that fits the buffer: it stands in ACC behind what stood there, and nothing else
changes but IDX and the BYTE SOURCE (R105, R113). -/
theorem pollLoop_text (more tail : Bytes) : ∀ (s : State) (timeout : Int) (t0 : Nat) (n : Nat),
    s.op = .receiving timeout t0 → s.pst = .reading → s.acc.wf = true → (∀ b ∈ more, b ≠ endByte) →
    s.idx + more.length ≤ s.cfg.rxCap → s.source = more ++ tail → more.length ≤ n →
    ∃ acc : Memory, acc.wf = true ∧
      pollLoop n s = pollLoop (n - more.length) { s with acc := acc, idx := s.idx + more.length, source := tail } ∧
      acc.readPrefix (s.idx + more.length) = s.text ++ more ∧
      ∀ a, acc.read a = if s.idx ≤ a ∧ a < s.idx + more.length then byteAt more (a - s.idx) else s.acc.read a := by
  induction more with
  | nil =>
    intro s timeout t0 n ho hp hw hm hc hs hn
    refine ⟨s.acc, hw, ?_, by simp [State.text], fun a => ?_⟩
    · simp at hs; simp [← hs]
    · rw [if_neg (by simp)]
  | cons b more ih =>
    intro s timeout t0 n ho hp hw hm hc hs hn
    simp only [List.length_cons] at hc hn
    obtain ⟨n, rfl⟩ : ∃ m, n = m + 1 := ⟨n - 1, by omega⟩
    have hb : b ≠ endByte := hm b (by simp)
    have e : parserStep b { s with source := more ++ tail } =
        { s with source := more ++ tail, acc := s.acc.write s.idx b, idx := s.idx + 1 } := by
      simp [parserStep, hp, hb, show s.idx < s.cfg.rxCap by omega]
    rw [pollLoop_byte ho (hs.trans (List.cons_append ..)), e, settle_not_ready (by simp [hp])]
    obtain ⟨acc, h1, h2, h3, h4⟩ :=
      ih { s with source := more ++ tail, acc := s.acc.write s.idx b, idx := s.idx + 1 } timeout t0 n ho hp
        (Memory.wf_write _ _ hw) (fun c hc => hm c (by simp [hc])) (by simp; omega) rfl (by omega)
    refine ⟨acc, h1, ?_, ?_, fun a => ?_⟩
    · rw [h2]; simp [Nat.add_assoc, Nat.add_comm 1]
    · have ht : ({ s with source := more ++ tail, acc := s.acc.write s.idx b, idx := s.idx + 1 } : State).text = s.text ++ [b] := by
        simp only [State.text, Memory.readPrefix_succ, Memory.readPrefix_write hw, Memory.read_write hw, if_true]
      rw [ht, show s.idx + 1 + more.length = s.idx + (b :: more).length by simp; omega] at h3
      rw [h3]; simp
    · rw [h4]
      simp only [Memory.read_write hw, List.length_cons]
      by_cases ha : a = s.idx
      · subst ha; simp [byteAt]
      · by_cases hr : s.idx + 1 ≤ a ∧ a < s.idx + 1 + more.length
        · rw [if_pos hr, if_pos (by omega)]
          obtain ⟨d, rfl⟩ : ∃ d, a = s.idx + (d + 1) := ⟨a - s.idx - 1, by omega⟩
          simp [byteAt, show s.idx + (d + 1) - (s.idx + 1) = d by omega]
        · rw [if_neg hr, if_neg ha, if_neg (by omega)]

theorem clockTest_idle {s : State} (h : s.op = .idle) : clockTest s = s := by simp [clockTest, h]

/-- The clock test adds no result, or the record of a timed-out packet for a bounded wait. -/
theorem clockTest_results (s : State) :
    (clockTest s).results = s.results ∨
    ((∃ timeout t0, s.op = .receiving timeout t0 ∧ waitIsBounded timeout = true) ∧
      (clockTest s).results = s.results ++ [.packet (timedOutPacket s.text)]) := by
  rcases clockTest_cases s with e | ⟨timeout, t0, ho, _, hb, e⟩ <;> rw [e]
  · exact .inl rfl
  · refine .inr ⟨⟨timeout, t0, ho, ?_⟩, rfl⟩
    simp only [boundPassed, Bool.and_eq_true] at hb
    exact hb.1

/-! ### The sink -/

/-- A turn of PKT_SEND hands over all that is left and ends the operation, or hands over what the sink accepts. -/
theorem pumpSink_cases (s : State) :
    pumpSink s = s ∨
    ∃ rest, s.op = .sending rest ∧
      ((rest.length ≤ s.sinkRoom ∧
          pumpSink s = { s with
            op := .idle, sinkRoom := s.sinkRoom - rest.length, sink := s.sink ++ rest, results := s.results ++ [.done] }) ∨
        (s.sinkRoom < rest.length ∧
          pumpSink s = { s with
            op := .sending (rest.drop s.sinkRoom), sinkRoom := 0, sink := s.sink ++ rest.take s.sinkRoom })) := by
  unfold pumpSink
  split
  · rename_i rest ho
    refine .inr ⟨rest, ho, ?_⟩
    by_cases h : rest.length ≤ s.sinkRoom
    · exact .inl ⟨h, by simp only [h, if_true, State.finish, State.respond, List.take_of_length_le h]⟩
    · exact .inr ⟨by omega, by simp only [h, if_false, Nat.sub_eq_zero_of_le (Nat.le_of_lt (Nat.lt_of_not_le h))]⟩
  · exact .inl rfl

/-! ### The invariants of the parser value (R24) -/

/-- The invariants speak of the parser value and the build alone. -/
theorem State.Inv.congr {s t : State} (h : s.Inv) (hc : t.cfg = s.cfg) (hp : t.pst = s.pst) (hi : t.idx = s.idx)
    (ha : t.acc = s.acc) (hk : t.clock = s.clock) : t.Inv :=
  ⟨hc ▸ h.cfgWf, ha ▸ h.accWf, by rw [hc, ha]; exact h.accBound, hp ▸ h.notReady, by rw [hp, hi]; exact h.waitingEmpty,
    by rw [hi, hc]; exact h.idxBound, by rw [hi, ha]; exact h.noEnd, by rw [hk, hc]; exact h.clockBound⟩

/-- The parser's cleared value meets the invariants, whatever ACC holds in canonical form. -/
theorem State.Inv.cleared {s t : State} (h : s.Inv) (hc : t.cfg = s.cfg) (hp : t.pst = .waitingForStart) (hi : t.idx = 0)
    (ha : t.acc = s.acc) (hk : t.clock = s.clock) : t.Inv :=
  ⟨hc ▸ h.cfgWf, ha ▸ h.accWf, by rw [hc, ha]; exact h.accBound, by simp [hp], fun _ => hi, by omega, by simp [hi],
    by rw [hk, hc]; exact h.clockBound⟩

/-- A parser step followed by leaving PACKET_READY keeps the invariants. -/
theorem State.Inv.settle_parserStep {s : State} (h : s.Inv) (b : Byte) : (settle (parserStep b s)).Inv := by
  rcases parserStep_cases b s with ⟨_, _, e⟩ | ⟨_, _, e⟩ | ⟨_, _, e⟩ | ⟨hp, hb, hlt, e⟩ | ⟨_, _, _, e⟩ | ⟨hp, _⟩
  · rw [e, settle_not_ready (by simp)]
    exact ⟨h.cfgWf, h.accWf, h.accBound, by simp, by simp, by simp, by simp, h.clockBound⟩
  · rw [e, settle_not_ready h.notReady]; exact h
  · rw [e, settle_ready rfl]; exact h.cleared rfl rfl rfl rfl rfl
  · rw [e, settle_not_ready (by simp [hp])]
    refine ⟨h.cfgWf, Memory.wf_write _ _ h.accWf, fun a ha => ?_, by simp [hp], by simp [hp], by simpa using hlt, fun a ha => ?_, h.clockBound⟩
    · have ha' : s.cfg.rxCap ≤ a := ha
      show (s.acc.write s.idx b).read a = _
      rw [Memory.read_write h.accWf, if_neg (by omega)]; exact h.accBound a ha
    · have ha' : a < s.idx + 1 := ha
      show (s.acc.write s.idx b).read a ≠ _
      rw [Memory.read_write h.accWf]
      split
      · exact hb
      · exact h.noEnd a (by omega)
  · rw [e, settle_not_ready (by simp)]; exact h.cleared rfl rfl rfl rfl rfl
  · exact absurd hp h.notReady

theorem State.Inv.timeOut {s : State} (h : s.Inv) : (timeOut s).Inv := h.congr rfl rfl rfl rfl rfl

theorem State.Inv.clockTest {s : State} (h : s.Inv) : (clockTest s).Inv := by
  rcases clockTest_cases s with e | ⟨_, _, _, _, _, e⟩ <;> rw [e]
  · exact h
  · exact h.timeOut

theorem State.Inv.pollLoop {s : State} (h : s.Inv) (n : Nat) : (pollLoop n s).Inv :=
  pollLoop_induct State.Inv (fun u b rest _ _ hu _ _ =>
    (State.Inv.congr (t := { u with source := rest }) hu rfl rfl rfl rfl rfl).settle_parserStep b) n s h

theorem State.Inv.beginTurn {s : State} (h : s.Inv) : s.beginTurn.Inv :=
  ⟨by simp [h.cfgWf], by simp [h.accWf], by simpa using h.accBound, by simp [h.notReady], by simpa using h.waitingEmpty,
    by simpa using h.idxBound, by simpa using h.noEnd, by
    rw [State.beginTurn_clock, State.beginTurn_cfg]; exact Nat.mod_lt _ (Nat.two_pow_pos _)⟩

end Sys2Proof.Machine
end

