-- ==== Sys2Proof/Laws/PerInstr.lean ====
section
/-! SUPPORT. Per instruction: the encoding of a well-formed instruction is taken by the instruction's own row of the opcode table, and
by no row before it. -/

namespace Sys2Proof.Laws.Encoding

open Sys2Proof

/-- The row of spec/opcode_table.json that takes the encoding of `i` is the row of `i` (R62, R75, R142). -/
def Statement (i : Instr) : Prop := ∀ c : Config, i.wf c = true → selectRow (encode i) = some i.mnemonic

/-- A row takes a CMD by its code alone (R75). -/
theorem selectRow_cmd (code : BitVec 4) (args : List Arg) : selectRow (cmd code args) = selectRow (cmd code []) := rfl

theorem b64enc (bytes : Bytes) : Statement (.b64enc bytes) := fun _ _ => (selectRow_cmd 0x1 _).trans
  (by decide : selectRow (cmd 0x1 []) = some "B64ENC")
theorem b64dec (text : Bytes) : Statement (.b64dec text) := fun _ _ => (selectRow_cmd 0x2 _).trans
  (by decide : selectRow (cmd 0x2 []) = some "B64DEC")
theorem pktSend (bytes : Bytes) : Statement (.pktSend bytes) := fun _ _ => (selectRow_cmd 0x3 _).trans
  (by decide : selectRow (cmd 0x3 []) = some "PKT_SEND")
theorem pktRecv (timeout : Int) : Statement (.pktRecv timeout) := fun _ _ => (selectRow_cmd 0x4 _).trans
  (by decide : selectRow (cmd 0x4 []) = some "PKT_RECV")
theorem crc32 (bytes : Bytes) : Statement (.crc32 bytes) := fun _ _ => (selectRow_cmd 0x5 _).trans
  (by decide : selectRow (cmd 0x5 []) = some "CRC32")
theorem crcCheck (bytes : Bytes) : Statement (.crcCheck bytes) := fun _ _ => (selectRow_cmd 0x6 _).trans
  (by decide : selectRow (cmd 0x6 []) = some "CRC_CHECK")
theorem segEnc (isAck : Bool) (sequenceNumber ackNumber : Word32) (data : Bytes) : Statement (.segEnc isAck sequenceNumber ackNumber data) := fun _ _ => (selectRow_cmd 0x7 _).trans
  (by decide : selectRow (cmd 0x7 []) = some "SEG_ENC")
theorem segDec (bytes : Bytes) : Statement (.segDec bytes) := fun _ _ => (selectRow_cmd 0x8 _).trans
  (by decide : selectRow (cmd 0x8 []) = some "SEG_DEC")
theorem reset : Statement .reset := fun _ _ => rfl
theorem status : Statement .status := fun _ _ => rfl
theorem reserved0 : Statement .reserved0 := fun _ _ => rfl
theorem reservedB : Statement .reservedB := fun _ _ => rfl
theorem reservedCF (low : BitVec 2) : Statement (.reservedCF low) := fun _ _ => by
  have h : ∀ low : BitVec 2, selectRow (encode (.reservedCF low)) = some "RESERVED_C_F" := by decide
  exact h low
theorem rxStart : Statement .rxStart := fun _ _ => rfl
theorem rxEnd : Statement .rxEnd := fun _ _ => rfl
theorem rxData (b : Byte) : Statement (.rxData b) := fun c h => by
  have h' : ∀ b : Byte, (b != 0x00 && b != 0x04) = true → selectRow (.rx b) = some "RX_DATA" := by decide +kernel
  exact h' b h

end Sys2Proof.Laws.Encoding
end

