-- ==== Sys2Proof/Laws/Step.lean ====
section
/-! SUPPORT. What `exec`, `runRaw`, `hostMove` and `step` can do, said once as inversion lemmas, and the relation of `Reaches` to the
host's run. A proof about every step cites these and unfolds none of them. -/

namespace Sys2Proof.Machine

/-! ### Reaches -/

@[simp] theorem State.reaches_zero (s t : State) : s.Reaches 0 t ↔ s = t := Iff.rfl

theorem State.Reaches.cons {s t u : State} {n : Nat} (h : step s = .next u) (h' : u.Reaches n t) : s.Reaches (n + 1) t :=
  ⟨u, h, h'⟩

/-- `Reaches` is the host's run. -/
theorem run_of_reaches : ∀ {n : Nat} {s t : State}, s.Reaches n t → Host.Core.run Sys2Proof.core n s = .next t
  | 0, _, _, h => congrArg _ h
  | n + 1, s, t, ⟨u, hs, hr⟩ => by
    have hs' : Sys2Proof.core.step s = .next u := hs
    simp only [Host.Core.run, hs']
    exact run_of_reaches hr

/-! ### Outcomes -/

theorem mapNext_next {f : State → State} {o : Outcome} {t : State} (h : mapNext f o = .next t) : ∃ u, o = .next u ∧ t = f u := by
  cases o <;> cases h
  exact ⟨_, rfl, rfl⟩

theorem mapNext_fault {f : State → State} {o : Outcome} {r : Fault} (h : mapNext f o = .fault r) : o = .fault r := by
  cases o <;> cases h
  rfl

/-! ### Instructions -/

/-- Everything a CMD's instruction can answer next: a result record and nothing else, a segment whose check failed, RESET, PKT_SEND
with its first turn, or PKT_RECV with its first turn. -/
theorem exec_cmd_next {i : Instr} {c : RawCmd} {s t : State} (hi : encode i = .cmd c) (h : exec i s = .next t) :
    s.op = .idle ∧
    ((∃ r, (∀ p, r ≠ .packet p) ∧ t = s.respond r) ∨
      (∃ g : Segment, t = s.drawn.respond (.segment g)) ∨
      t = s.clearParser.respond .done ∨
      (∃ bytes, t = pumpSink { s with op := .sending (encodePacket s.cfg.b64 bytes) }) ∨
      (∃ timeout, s.pst ≠ .packetReady ∧
        t = clockTest (pollLoop s.turn.polls { s with op := .receiving timeout s.clock }))) := by
  have pure : ∀ r, (∀ p, r ≠ .packet p) → respondWith r s = .next t →
      s.op = .idle ∧ ∃ r, (∀ p, r ≠ .packet p) ∧ t = s.respond r := fun r hr h =>
    ⟨(respondWith_next h).1, r, hr, (respondWith_next h).2⟩
  by_cases ho : s.op = .idle
  · refine ⟨ho, ?_⟩
    cases i with
    | rxStart => cases hi
    | rxEnd => cases hi
    | rxData b => cases hi
    | segDec bytes =>
      simp only [exec, execSegDec, atBoundary_idle ho] at h
      split at h <;> cases h
      · exact .inl ⟨_, by simp, rfl⟩
      · exact .inr (.inl ⟨_, rfl⟩)
    | reset =>
      simp only [exec, execReset, atBoundary_idle ho] at h
      cases h
      exact .inr (.inr (.inl rfl))
    | pktSend bytes =>
      simp only [exec, execPktSend, atBoundary_idle ho] at h
      cases h
      exact .inr (.inr (.inr (.inl ⟨bytes, rfl⟩)))
    | pktRecv timeout =>
      simp only [exec, execPktRecv, atBoundary_idle ho] at h
      split at h <;> cases h
      exact .inr (.inr (.inr (.inr ⟨timeout, ‹_›, rfl⟩)))
    | b64enc bytes => exact .inl (pure _ (by simp) h).2
    | b64dec text => exact .inl (pure _ (by simp) h).2
    | crc32 bytes => exact .inl (pure _ (by simp) h).2
    | crcCheck bytes => exact .inl (pure _ (by simp) h).2
    | segEnc isAck q k data => exact .inl (pure _ (by simp) h).2
    | status => exact .inl (pure _ (by simp) h).2
    | reserved0 => exact .inl (pure _ (by simp) h).2
    | reservedB => exact .inl (pure _ (by simp) h).2
    | reservedCF low => exact .inl (pure _ (by simp) h).2
  · exfalso
    revert h
    cases i <;> first
      | (cases hi; done)
      | simp [exec, execB64enc, execB64dec, execPktSend, execPktRecv, execCrc32, execCrcCheck, execSegEnc, execSegDec, execReset,
          execStatus, execReserved0, execReservedB, execReservedCF, reportIllegal, respondWith, atBoundary_busy ho]

/-- A CMD's instruction faults in PACKET_READY alone, and only as a PKT_RECV (R102). -/
theorem exec_cmd_fault {i : Instr} {c : RawCmd} {s : State} {r : Fault} (hi : encode i = .cmd c) (h : exec i s = .fault r) :
    s.pst = .packetReady := by
  by_cases ho : s.op = .idle
  · revert h
    cases i <;> first
      | (cases hi; done)
      | simp [exec, execB64enc, execB64dec, execPktSend, execPktRecv, execCrc32, execCrcCheck, execSegEnc, execSegDec, execReset,
          execStatus, execReserved0, execReservedB, execReservedCF, reportIllegal, respondWith, atBoundary_idle ho]
    all_goals (split <;> simp_all)
  · revert h
    cases i <;> first
      | (cases hi; done)
      | simp [exec, execB64enc, execB64dec, execPktSend, execPktRecv, execCrc32, execCrcCheck, execSegEnc, execSegDec, execReset,
          execStatus, execReserved0, execReservedB, execReservedCF, reportIllegal, respondWith, atBoundary_busy ho]

/-! ### The decoder's kinds -/

/-- What a CMD decodes to is encoded as a CMD. -/
theorem encode_of_decode_cmd {cfg : Config} {c : RawCmd} {i : Instr} (h : decode cfg (.cmd c) = .ok i) :
    ∃ c', encode i = .cmd c' := by
  have str : ∀ {f mk args} {i : Instr}, withString cfg f mk args = .ok i → ∃ bytes, i = mk bytes := by
    intro f mk args i h
    unfold withString at h
    split at h
    · split at h
      · cases h
      · split at h
        · cases h
        · split at h <;> cases h
          exact ⟨_, rfl⟩
    · cases h
  have seg : ∀ {args} {i : Instr}, withSegment cfg args = .ok i → ∃ a q k d, i = .segEnc a q k d := by
    intro args i h
    unfold withSegment at h
    split at h
    · obtain ⟨d, rfl⟩ := str h
      exact ⟨_, _, _, d, rfl⟩
    · cases h
  have tmo : ∀ {args} {i : Instr}, withTimeout cfg args = .ok i → ∃ v, i = .pktRecv v := by
    intro args i h
    unfold withTimeout at h
    split at h
    · split at h <;> cases h
      exact ⟨_, rfl⟩
    · cases h
  have non : ∀ {j args} {i : Instr}, withNothing j args = .ok i → i = j := by
    intro j args i h
    unfold withNothing at h
    split at h <;> cases h
    rfl
  simp only [decode, decodeCmd] at h
  split at h <;> first
    | (cases h; exact ⟨_, rfl⟩)
    | (obtain ⟨a, q, k, d, rfl⟩ := seg h; exact ⟨_, rfl⟩)
    | (obtain ⟨v, rfl⟩ := tmo h; exact ⟨_, rfl⟩)
    | (obtain rfl := non h; exact ⟨_, rfl⟩)
    | (obtain ⟨d, rfl⟩ := str h; exact ⟨_, rfl⟩)

/-- Running a received byte is one parser step, outside PACKET_READY. -/
theorem runRaw_rx (b : Byte) (s : State) : runRaw (.rx b) s = receiveByte b s := by
  simp only [runRaw, decode, exec_classify]

/-- Running a CMD answers next only through the instruction it decodes to. -/
theorem runRaw_cmd_next {c : RawCmd} {s t : State} (h : runRaw (.cmd c) s = .next t) :
    ∃ i c', decode s.cfg (.cmd c) = .ok i ∧ encode i = .cmd c' ∧ exec i s = .next t := by
  unfold runRaw at h
  split at h
  · rename_i i hd
    obtain ⟨c', hc⟩ := encode_of_decode_cmd hd
    exact ⟨i, c', hd, hc, h⟩
  · cases h

/-- An encoded well-formed instruction, run, is executed where the decoder gives it back. -/
theorem runRaw_of_decode {r : Raw} {s : State} {i : Instr} (h : decode s.cfg r = .ok i) : runRaw r s = exec i s := by
  simp [runRaw, h]

/-! ### The HOST -/

/-- The HOST issues CMDs only. -/
theorem hostMove_issue {cfg : Config} {last : Option Result} {h h' : HostState} {r : Raw}
    (e : hostMove cfg last h = .issue r h') : ∃ c, r = .cmd c := by
  have calls : ∀ {call g}, startCall cfg call g = .issue r h' → ∃ c, r = .cmd c := by
    intro call g e
    cases call <;> cases e <;> exact ⟨_, rfl⟩
  have reply : ∀ {q seg g k}, sortReply q seg g k = .issue r h' → ∃ c, r = .cmd c := by
    intro q seg g k e
    unfold sortReply at e
    split at e
    · cases e; exact ⟨_, rfl⟩
    · split at e
      · cases e
      · split at e <;> cases e <;> exact ⟨_, rfl⟩
  have incoming : ∀ {v g k}, sortIncoming v g k = .issue r h' → ∃ c, r = .cmd c := by
    intro v g k e
    unfold sortIncoming at e
    split at e
    · cases e; exact ⟨_, rfl⟩
    · split at e
      · cases e; exact ⟨_, rfl⟩
      · split at e <;> cases e <;> exact ⟨_, rfl⟩
  unfold hostMove at e
  split at e
  · split at e
    · cases e
    · exact calls e
  · cases e; exact ⟨_, rfl⟩
  · cases e; exact ⟨_, rfl⟩
  · split at e <;> cases e <;> exact ⟨_, rfl⟩
  · exact reply e
  · split at e <;> cases e <;> exact ⟨_, rfl⟩
  · exact incoming e
  · cases e; exact ⟨_, rfl⟩
  · rename_i next _
    cases next <;> cases e <;> exact ⟨_, rfl⟩
  · cases e

/-! ### The step -/

/-- Where no power-on interrupts it, a step is what the block and the HOST do in the turn. -/
theorem step_powered {s : State} (h : s.beginTurn.turn.powersOn = false) : step s = stepPowered s.beginTurn := by
  simp [step, stepWithin, h]

/-- At an operation boundary a step is the HOST's move. -/
theorem step_boundary {s : State} (h : s.beginTurn.turn.powersOn = false) (ho : s.op = .idle) :
    step s = match hostMove s.cfg s.results.getLast? s.host with
      | .issue c g => runRaw c { s.beginTurn with host := g }
      | .stay g => .next { s.beginTurn with host := g } := by
  have hb : s.beginTurn.op = .idle := by simp [ho]
  have e : stepPowered s.beginTurn = stepHost s.beginTurn := by
    unfold stepPowered
    split <;> simp_all only [reduceCtorEq]
  rw [step_powered h, e]
  have m : hostMove s.beginTurn.cfg s.beginTurn.results.getLast? s.beginTurn.host =
      hostMove s.cfg s.results.getLast? s.host := by
    rw [State.beginTurn_cfg, State.beginTurn_results, State.beginTurn_host]
  unfold stepHost
  rw [m]
  all_goals (cases hostMove s.cfg s.results.getLast? s.host <;> rfl)

/-- Everything a step can do when it answers next. `u` is the state in which the turn has begun. -/
theorem step_next {s t : State} (h : step s = .next t) :
    ∃ u, u = s.beginTurn ∧
    ((u.turn.powersOn = true ∧ t = u.powerOn) ∨
      (s.op = .idle ∧ ∃ h', hostMove u.cfg u.results.getLast? u.host = .stay h' ∧ t = { u with host := h' }) ∨
      (s.op = .idle ∧ ∃ c h' i c', hostMove u.cfg u.results.getLast? u.host = .issue (.cmd c) h' ∧
        decode u.cfg (.cmd c) = .ok i ∧ encode i = .cmd c' ∧ exec i { u with host := h' } = .next t) ∨
      (∃ rest, s.op = .sending rest ∧ t = pumpSink u) ∨
      (∃ timeout t0, s.op = .receiving timeout t0 ∧ (u.turn.polls = 0 ∨ u.source = []) ∧ t = clockTest u) ∨
      (∃ timeout t0 n b rest, s.op = .receiving timeout t0 ∧ u.turn.polls = n + 1 ∧ u.source = b :: rest ∧ u.pst ≠ .packetReady ∧
        t = afterByte n (parserStep b { u with source := rest }))) := by
  refine ⟨_, rfl, ?_⟩
  simp only [step, stepWithin] at h
  split at h
  · rename_i hp
    cases h
    exact .inl ⟨hp, rfl⟩
  refine .inr ?_
  simp only [stepPowered, State.beginTurn_op] at h
  split at h
  · rename_i ho
    unfold stepHost at h
    split at h
    · rename_i r h' hm
      obtain ⟨c, rfl⟩ := hostMove_issue hm
      obtain ⟨i, c', hd, hc, he⟩ := runRaw_cmd_next h
      exact .inr (.inl ⟨ho, c, h', i, c', hm, hd, hc, he⟩)
    · rename_i h' hm
      cases h
      exact .inl ⟨ho, h', hm, rfl⟩
  · rename_i rest ho
    cases h
    exact .inr (.inr (.inl ⟨rest, ho, rfl⟩))
  · rename_i timeout t0 ho
    unfold stepReceiving at h
    split at h
    · rename_i n b rest hn hs
      rw [runRaw_rx, receiveByte] at h
      split at h
      · cases h
      · rename_i hp
        cases h
        exact .inr (.inr (.inr (.inr ⟨timeout, t0, n, b, rest, ho, hn, hs, hp, rfl⟩)))
    · rename_i hno
      cases h
      refine .inr (.inr (.inr (.inl ⟨timeout, t0, ho, ?_, rfl⟩)))
      cases hn : s.beginTurn.turn.polls with
      | zero => exact .inl rfl
      | succ n =>
        cases hs : s.beginTurn.source with
        | nil => exact .inr rfl
        | cons b rest => exact absurd hs (hno n b rest hn)

/-- A step faults in PACKET_READY alone. -/
theorem step_fault {s : State} {r : Fault} (h : step s = .fault r) : s.pst = .packetReady := by
  simp only [step, stepWithin] at h
  split at h
  · cases h
  simp only [stepPowered] at h
  split at h
  · unfold stepHost at h
    split at h
    · rename_i r h' hm
      obtain ⟨c, rfl⟩ := hostMove_issue hm
      unfold runRaw at h
      split at h
      · rename_i i hd
        obtain ⟨c', hc⟩ := encode_of_decode_cmd hd
        simpa using exec_cmd_fault hc h
      · cases h
    · cases h
  · cases h
  · unfold stepReceiving at h
    split at h
    · have := mapNext_fault h
      rw [runRaw_rx, receiveByte] at this
      split at this
      · rename_i hp
        simpa using hp
      · cases this
    · cases h

end Sys2Proof.Machine
end

