-- ==== Sys2Proof/Tests/Slice0.lean ====
section
/-! SUPPORT. The model's own tests. Expected values come from spec/95_test_vectors.md (named V-…) or are written out from the spec's
tables; the second part shows, for each statement with hypotheses, values that meet all of them. -/

namespace Sys2Proof.Tests

open Sys2Proof Sys2Proof.Machine

/-! ### Helpers -/

/-- The next state of an outcome. -/
def nextOf : Outcome → Option State
  | .next s => some s
  | _ => none

/-- The last result record of the next state. -/
def resultOf (o : Outcome) : Option Result := (nextOf o).bind fun s => s.results.getLast?

/-- The parser value of the next state, without ACC. -/
def parserOf (o : Outcome) : Option (ParserState × Nat) := (nextOf o).map fun s => (s.pst, s.idx)

/-- A parser value in the state after reset. -/
def parser (pst : ParserState) (idx : Nat) : State := { State.reset with pst := pst, idx := idx }

/-- Bytes waiting, and a turn that polls for all of them and tests the clock. -/
def waiting (s : State) (bytes : Bytes) : State :=
  { s with source := bytes, turn := { Turn.quiet with polls := bytes.length, testsClock := true } }

/-- Three accumulated text bytes: the start of V-P7. -/
def partialText : State :=
  { State.reset with pst := .reading, idx := 3, acc := [(0, 0x5A), (1, 0x67), (2, 0x3D)] }

/-- A build with the smallest RX_CAP. -/
def smallest : Config := { Config.default with rxCap := 4 }

/-- V-S3. -/
def segOk : Bytes := [0x00, 0x01, 0, 0, 0, 0, 0, 0, 0, 0x4F, 0x4B, 0x00, 0x11, 0xAA, 0x12]

/-- V-S2. -/
def segAck : Bytes := [0x01, 0xFF, 0xFF, 0xFF, 0xFF, 0, 0, 0, 0, 0x7B, 0x20, 0xAF, 0x6B]

/-! ### WellFormed: an ill-formed term for each check -/

theorem test_wf_operand_too_long : (Instr.crc32 [1, 2, 3]).wf { Config.default with lenMax := some 2 } = false := by decide
theorem test_wf_b64dec_operand_too_long : (Instr.b64dec [1, 2, 3]).wf { Config.default with lenMax := some 2 } = false := by decide
theorem test_wf_crc_check_operand_too_long : (Instr.crcCheck [1]).wf { Config.default with lenMax := some 0 } = false := by decide
theorem test_wf_seg_dec_operand_too_long : (Instr.segDec [1]).wf { Config.default with lenMax := some 0 } = false := by decide
theorem test_wf_text_too_long : (Instr.b64enc [1, 2, 3]).wf { Config.default with lenMax := some 3 } = false := by decide
theorem test_wf_packet_text_too_long : (Instr.pktSend [1]).wf { Config.default with lenMax := some 3 } = false := by decide
theorem test_wf_segment_too_long : (Instr.segEnc false 0 0 []).wf { Config.default with lenMax := some 12 } = false := by decide
theorem test_wf_data_is_no_start : (Instr.rxData 0x00).wf Config.default = false := by decide
theorem test_wf_data_is_no_end : (Instr.rxData 0x04).wf Config.default = false := by decide
theorem test_wf_timeout_too_wide :
    (Instr.pktRecv 2147483648).wf Config.default = false ∧ (Instr.pktRecv (-129)).wf { Config.default with timeoutW := 8 } = false := by
  decide
theorem test_wf_holds_at_the_bounds :
    (Instr.b64enc [1, 2, 3]).wf { Config.default with lenMax := some 4 } = true ∧
    (Instr.segEnc false 0 0 []).wf { Config.default with lenMax := some 13 } = true ∧
    (Instr.pktRecv 2147483647).wf Config.default = true ∧ (Instr.pktRecv (-2147483648)).wf Config.default = true ∧
    (Instr.rxData 0x03).wf Config.default = true ∧ (Instr.rxData 0x05).wf Config.default = true := by decide
theorem test_config_wf : Config.default.wf = true ∧ smallest.wf = true ∧
    [({ Config.default with rxCap := 3 } : Config), { Config.default with timeoutW := 0 }, { Config.default with timeoutW := 33 },
      { Config.default with timeoutW := 7 }, { Config.default with overflowSentinel := 0 }].map Config.wf = List.replicate 5 false := by
  decide +kernel
/-- One character twice, one too few, a pad inside the alphabet, and a delimiter among the characters. -/
theorem test_base64_wf :
    [({ Base64Params.rfc4648 with alphabet := rfc4648Alphabet.set 63 0x41 } : Base64Params),
      { Base64Params.rfc4648 with alphabet := rfc4648Alphabet.dropLast }, { Base64Params.rfc4648 with pad := 0x41 },
      { Base64Params.rfc4648 with alphabet := rfc4648Alphabet.set 0 0x04 }].map Base64Params.wf = List.replicate 4 false := by
  decide +kernel
/-- The "value taken" column of R8. -/
theorem test_config_default :
    Config.default.rxCap = 64 ∧ Config.default.rawCap = 48 ∧ Config.default.byteOrder = .littleEndian ∧
    Config.default.crc = .isoHdlc ∧ Config.default.b64.pad = 0x3D ∧ Config.default.timeoutW = 32 ∧ Config.default.clockW = 32 ∧
    Config.default.ackTimeoutMs = 100 ∧ Config.default.msgMax = 64 ∧ Config.default.overflowSentinel = -1 := by decide
/-- R183: the elapsed time is right across one wrap of the CLOCK. -/
theorem test_clock_wraps :
    advanceClock .default 0xFFFFFFFF 1 = 0 ∧ elapsedSince .default 0xFFFFFFF0 0x10 = 0x20 ∧
    boundPassed .default 0x10 0xFFFFFFF0 0x20 = true ∧ boundPassed .default 0x10 0xFFFFFFF0 0x21 = false ∧
    boundPassed .default 0x10 0xFFFFFFF0 (-1) = false := by decide

/-! ### Decode: words written out from R75 and R62 -/

theorem test_decode_b64enc : decode .default (.cmd ⟨0b0001, [.str 2 [0x4D, 0x61]]⟩) = .ok (.b64enc [0x4D, 0x61]) := by decide
theorem test_decode_b64dec : decode .default (.cmd ⟨0b0010, [.str 1 [0x3D]]⟩) = .ok (.b64dec [0x3D]) := by decide
theorem test_decode_pkt_send : decode .default (.cmd ⟨0b0011, [.str 0 []]⟩) = .ok (.pktSend []) := by decide
theorem test_decode_pkt_recv : decode .default (.cmd ⟨0b0100, [.timeout (-1)]⟩) = .ok (.pktRecv (-1)) := by decide
theorem test_decode_crc32 : decode .default (.cmd ⟨0b0101, [.str 1 [0x61]]⟩) = .ok (.crc32 [0x61]) := by decide
theorem test_decode_crc_check : decode .default (.cmd ⟨0b0110, [.str 1 [0x61]]⟩) = .ok (.crcCheck [0x61]) := by decide
theorem test_decode_seg_enc :
    decode .default (.cmd ⟨0b0111, [.bit true, .word 0x12345678, .word 0x9ABCDEF0, .str 2 [0xDE, 0xAD]]⟩) =
      .ok (.segEnc true 0x12345678 0x9ABCDEF0 [0xDE, 0xAD]) := by decide
theorem test_decode_seg_dec : decode .default (.cmd ⟨0b1000, [.str 1 [0]]⟩) = .ok (.segDec [0]) := by decide
theorem test_decode_reset : decode .default (.cmd ⟨0b1001, []⟩) = .ok .reset := by decide
theorem test_decode_status : decode .default (.cmd ⟨0b1010, []⟩) = .ok .status := by decide
theorem test_decode_reserved :
    decode .default (.cmd ⟨0b0000, []⟩) = .ok .reserved0 ∧ decode .default (.cmd ⟨0b1011, []⟩) = .ok .reservedB ∧
    decode .default (.cmd ⟨0b1100, []⟩) = .ok (.reservedCF 0b00) ∧ decode .default (.cmd ⟨0b1111, []⟩) = .ok (.reservedCF 0b11) := by
  decide
theorem test_decode_received_bytes :
    decode .default (.rx 0b00000000) = .ok .rxStart ∧ decode .default (.rx 0b00000100) = .ok .rxEnd ∧
    decode .default (.rx 0b01000001) = .ok (.rxData 0x41) := by decide

/-- Both ends of the 32-bit two's complement range, and one beyond each. -/
theorem test_decode_timeout_width :
    decode .default (.cmd ⟨0b0100, [.timeout 2147483647]⟩) = .ok (.pktRecv 2147483647) ∧
    decode .default (.cmd ⟨0b0100, [.timeout (-2147483648)]⟩) = .ok (.pktRecv (-2147483648)) ∧
    decode .default (.cmd ⟨0b0100, [.timeout 2147483648]⟩) = .error .timeoutTooWide ∧
    decode .default (.cmd ⟨0b0100, [.timeout (-2147483649)]⟩) = .error .timeoutTooWide := by decide
theorem test_decode_rejects_length : decode .default (.cmd ⟨0b0101, [.str 2 [0x61]]⟩) = .error .lengthMismatch := by decide
theorem test_decode_rejects_shape : decode .default (.cmd ⟨0b1010, [.word 0]⟩) = .error .operandShape := by decide
theorem test_decode_rejects_long_operand :
    decode { Config.default with lenMax := some 2 } (.cmd ⟨0b0101, [.str 3 [1, 2, 3]]⟩) = .error .operandTooLong := by decide
theorem test_decode_rejects_long_result :
    decode { Config.default with lenMax := some 12 } (.cmd ⟨0b0111, [.bit false, .word 0, .word 0, .str 0 []]⟩) =
      .error .resultTooLong := by decide

/-- The rows of the opcode table: no two rows of a format take the same word, RX_DATA apart, which is tried last. -/
theorem test_command_rows_disjoint :
    commandRows.Pairwise fun x y => ∀ code : BitVec 4, ¬ (x.selects (cmd code []) = true ∧ y.selects (cmd code []) = true) := by
  decide

theorem test_table_words :
    decodeTableWord 8 0x3 = some (.pktSend []) ∧ decodeTableWord 8 0xD = some (.reservedCF 0b01) ∧
    decodeTableWord 8 0x41 = some (.rxData 0x41) := by decide

theorem test_first_step_after_reset_runs_a_command :
    resultOf (step (State.reset.withFetchWord 8 0xA)) = some (.status 0x0000) := by decide
theorem test_first_step_after_reset_takes_a_byte :
    (nextOf (step (State.reset.withFetchWord 8 0x41))).map (fun s => (s.pst, s.idx, s.source)) =
      some (.waitingForStart, 0, []) := by decide

/-! ### B64ENC and B64DEC -/

/-- V-B5. -/
theorem test_b64enc_foob :
    resultOf (exec (.b64enc [0x66, 0x6F, 0x6F, 0x62]) State.reset) =
      some (.text [0x5A, 0x6D, 0x39, 0x76, 0x59, 0x67, 0x3D, 0x3D]) := by decide +kernel
/-- V-B21: a text with `+`. -/
theorem test_b64enc_plus :
    resultOf (exec (.b64enc [0x14, 0xFB, 0x9C, 0x03, 0xD9, 0x7E]) State.reset) =
      some (.text [0x46, 0x50, 0x75, 0x63, 0x41, 0x39, 0x6C, 0x2B]) := by decide +kernel
/-- V-B14. -/
theorem test_b64dec_slash :
    resultOf (exec (.b64dec [0x2B, 0x2F, 0x38, 0x3D]) State.reset) = some (.bytes [0xFB, 0xFF]) := by decide +kernel
/-- V-B30 to V-B38: none of these texts is canonical. -/
theorem test_b64dec_not_canonical :
    [[0x5A, 0x67], [0x5A, 0x67, 0x3D], [0x5A, 0x68, 0x3D, 0x3D], [0x5A, 0x6D, 0x39, 0x3D], [0x5A, 0x3D, 0x3D, 0x3D],
      [0x5A, 0x67, 0x3D, 0x3D, 0x5A, 0x67, 0x3D, 0x3D], [0x5A, 0x67, 0x00, 0x3D], [0x5A, 0x6D, 0x39, 0x76, 0x0A],
      [0x5A, 0x6D, 0x2D, 0x5F]].map (isCanonical .rfc4648) = List.replicate 9 false := by decide +kernel

/-! ### PKT_SEND and PKT_RECV -/

/-- V-P22: the delimiters inside the payload do not appear on the wire. -/
theorem test_pkt_send_delimiters :
    (nextOf (exec (.pktSend [0x00, 0x04]) { State.reset with sinkRoom := 6 })).map (fun s => (s.sink, s.op, s.results)) =
      some ([0x00, 0x41, 0x41, 0x51, 0x3D, 0x04], .idle, [.done]) := by decide +kernel
/-- V-P20 with a sink that accepts one byte (R52). -/
theorem test_pkt_send_slow_sink :
    (nextOf (exec (.pktSend []) { State.reset with sinkRoom := 1 })).map (fun s => (s.sink, s.op, s.results)) =
      some ([0x00], .sending [0x04], []) := by decide +kernel
/-- V-P3 with V-P4's second packet behind it: noise before START is dropped, what follows END stays untaken. -/
theorem test_pkt_recv_noise_before_start :
    (nextOf (exec (.pktRecv (-1)) (waiting State.reset [0x58, 0x04, 0xFF, 0x00, 0x5A, 0x67, 0x3D, 0x3D, 0x04, 0x00, 0x04]))).map
        (fun s => (s.results, s.source, s.pst, s.idx)) =
      some ([.packet { payload := [0x66], byteCount := 1, timedOut := false, wellFormed := true }], [0x00, 0x04],
        .waitingForStart, 0) := by decide +kernel
/-- V-P7. -/
theorem test_pkt_recv_times_out_undecoded :
    (nextOf (exec (.pktRecv 0) (waiting partialText []))).map (fun s => (s.results, s.pst, s.idx)) =
      some ([.packet { payload := [0x5A, 0x67, 0x3D], byteCount := 3, timedOut := true, wellFormed := false }], .reading, 3) := by
  decide +kernel

/-! ### CRC32 and CRC_CHECK -/

/-- V-C3. -/
theorem test_crc32_a : resultOf (exec (.crc32 [0x61]) State.reset) = some (.crc 0xE8B7BE43) := by decide +kernel
/-- V-C9. -/
theorem test_crc32_ack_head :
    resultOf (exec (.crc32 [0x01, 0xFF, 0xFF, 0xFF, 0xFF, 0, 0, 0, 0]) State.reset) = some (.crc 0x6BAF207B) := by decide +kernel
/-- V-C22 and V-C23: the trailer is little-endian. -/
theorem test_crc_check_byte_order :
    resultOf (exec (.crcCheck [0x61, 0x43, 0xBE, 0xB7, 0xE8]) State.reset) = some (.checksumValid true) ∧
    resultOf (exec (.crcCheck [0x61, 0xE8, 0xB7, 0xBE, 0x43]) State.reset) = some (.checksumValid false) := by decide +kernel
/-- V-C20 and V-C21. -/
theorem test_crc_check_short :
    resultOf (exec (.crcCheck [0, 0, 0]) State.reset) = some (.checksumValid false) ∧
    resultOf (exec (.crcCheck [0, 0, 0, 0]) State.reset) = some (.checksumValid true) := by decide +kernel

/-! ### SEG_ENC and SEG_DEC -/

/-- V-S4. -/
theorem test_seg_enc_layout :
    resultOf (exec (.segEnc false 0x12345678 0x9ABCDEF0 [0xDE, 0xAD]) State.reset) =
      some (.bytes [0x00, 0x78, 0x56, 0x34, 0x12, 0xF0, 0xDE, 0xBC, 0x9A, 0xDE, 0xAD, 0xFD, 0xBF, 0x3C, 0x4D]) := by decide +kernel
/-- V-S2. -/
theorem test_seg_enc_ack : resultOf (exec (.segEnc true 0xFFFFFFFF 0 []) State.reset) = some (.bytes segAck) := by decide +kernel
/-- V-S16: bit 1 of the flag byte is ignored. -/
theorem test_seg_dec_ignores_flag_bit_1 :
    resultOf (exec (.segDec [0x02, 5, 0, 0, 0, 6, 0, 0, 0, 0x78, 0xAA, 0xF1, 0x76, 0x7C]) State.reset) =
      some (.segment { checksumValid := true,
                       fields := { isAck := false, sequenceNumber := 5, ackNumber := 6, data := [0x78], dataLen := 1 } }) := by
  decide +kernel
/-- V-S12 and V-S15: the check fails; 13 bytes are the least. -/
theorem test_seg_dec_fails :
    segmentValid .default (segOk.dropLast ++ [0x11]) = false ∧ segmentValid .default [0, 0, 0, 0] = false ∧
    segmentValid .default segOk = true := by decide +kernel

/-! ### RESET, STATUS and the reserved codes -/

/-- V-Y5: ACC is kept. -/
theorem test_reset :
    (nextOf (exec .reset partialText)).map (fun s => (s.pst, s.idx, s.acc)) =
      some (.waitingForStart, 0, [(0, 0x5A), (1, 0x67), (2, 0x3D)]) := by decide
/-- V-Y3 and V-Y4. -/
theorem test_status :
    resultOf (exec .status (parser .reading 9)) = some (.status 0x0025) ∧
    resultOf (exec .status (parser .reading 64)) = some (.status 0x0101) := by decide
/-- V-Y6. -/
theorem test_reserved :
    [Instr.reserved0, .reservedB, .reservedCF 0, .reservedCF 3].map (fun i => nextOf (exec i (parser .reading 9))) =
      List.replicate 4 (some { parser .reading 9 with results := [.illegal] }) := by decide

/-! ### The parser step -/

/-- V-P10 and V-P15. -/
theorem test_rx_start :
    parserOf (exec .rxStart (parser .waitingForStart 0)) = some (.reading, 0) ∧
    (nextOf (exec .rxStart { parser .reading 5 with acc := [(5, 0x41)] })).map (fun s => (s.pst, s.idx, s.acc)) =
      some (.reading, 6, []) := by decide
/-- V-P19: the byte is not taken as a START. -/
theorem test_rx_start_full : parserOf (exec .rxStart (parser .reading 64)) = some (.waitingForStart, 0) := by decide
/-- V-P11 and V-P13. -/
theorem test_rx_end :
    parserOf (exec .rxEnd (parser .waitingForStart 0)) = some (.waitingForStart, 0) ∧
    parserOf (exec .rxEnd (parser .reading 0)) = some (.packetReady, 0) := by decide
/-- V-P17. -/
theorem test_rx_end_full : parserOf (exec .rxEnd (parser .reading 64)) = some (.packetReady, 64) := by decide
/-- V-P12 and V-P18. -/
theorem test_rx_data :
    parserOf (exec (.rxData 0x41) (parser .waitingForStart 0)) = some (.waitingForStart, 0) ∧
    parserOf (exec (.rxData 0x41) (parser .reading 64)) = some (.waitingForStart, 0) := by decide
/-- V-P16. -/
theorem test_rx_data_last_place :
    (nextOf (exec (.rxData 0x41) (parser .reading 63))).map (fun s => (s.pst, s.idx, s.acc)) =
      some (.reading, 64, [(63, 0x41)]) := by decide

/-! ### The byte space ACC -/

theorem test_memory_write_unwritten_removes : Memory.write [(1, 0x41), (5, 0x42)] 1 0x00 = [(5, 0x42)] := by decide
theorem test_memory_write_keeps_order : Memory.write [(1, 0x41), (5, 0x42)] 3 0x43 = [(1, 0x41), (3, 0x43), (5, 0x42)] := by decide

/-! ### The HOST -/

/-- V-H3: longer than the buffer. -/
theorem test_receive_overflow :
    deliveryReturn .default [0x4F, 0x4B] 2 (.data 1) = .received (-1) [0x4F] := by decide
/-- V-H5: another number is discarded, and the wait goes on. -/
theorem test_receive_discards :
    sortIncoming (.data 64) { checksumValid := true, fields := { isAck := false, sequenceNumber := 0x12345678, ackNumber := 0, data := [], dataLen := 0 } }
        { HostState.reset with lastAcknowledged := 0 } =
      .issue (.cmd ⟨0x4, [.timeout (-1)]⟩) { HostState.reset with lastAcknowledged := 0, phase := .recvWaiting (.data 64) } := by
  decide
/-- V-H9: a duplicate while sending is acknowledged, and the segment is sent again. -/
theorem test_send_acknowledges_duplicate :
    sortReply 0 segOk { checksumValid := true, fields := { isAck := false, sequenceNumber := 0xFFFFFFFF, ackNumber := 0, data := [], dataLen := 0 } }
        HostState.reset =
      .issue (.cmd ⟨0x7, [.bit true, .word 0xFFFFFFFF, .word 0xFFFFFFFF, .str 0 []]⟩)
        { HostState.reset with phase := .ackEncoding (.resend 0 segOk) } := by decide
/-- V-H7: the matching acknowledgement ends `send_data`. -/
theorem test_send_ends :
    sortReply 0 segOk { checksumValid := true, fields := { isAck := true, sequenceNumber := 0xFFFFFFFF, ackNumber := 0, data := [], dataLen := 0 } }
        HostState.reset =
      .stay { HostState.reset with lastDelivered := 0, returns := [.sent] } := by decide

/-- DATA_ACK_FIELD: the call's where the build leaves it open, the build's otherwise (R159). -/
theorem test_data_ack_field :
    beginSend .default [] 7 HostState.reset =
      .issue (.cmd ⟨0x7, [.bit false, .word 0, .word 7, .str 0 []]⟩) { HostState.reset with phase := .sendEncoding 0 } ∧
    beginSend { Config.default with dataAckField := some 9 } [] 7 HostState.reset =
      .issue (.cmd ⟨0x7, [.bit false, .word 0, .word 9, .str 0 []]⟩) { HostState.reset with phase := .sendEncoding 0 } := by decide

/-- A session in progress, about to be brought up anew. -/
def restarting (calls : List HostCall) : State :=
  { partialText with
    host := { HostState.reset with lastDelivered := 4, lastAcknowledged := 6, calls := calls }
    agenda := List.replicate 2 Turn.quiet }

/-- R158 and R203: RESET alone keeps the counters; a new session has them at 0xFFFFFFFF, in one call or with the RESET before or
after it. -/
theorem test_new_session :
    ((nextOf (step (restarting [.cmd ⟨0x9, []⟩]))).map fun s => (s.pst, s.host.lastDelivered, s.host.lastAcknowledged)) =
      some (.waitingForStart, 4, 6) ∧
    ((nextOf (step (restarting [.newSession]))).map fun s => (s.pst, s.host.lastDelivered, s.host.lastAcknowledged)) =
      some (.waitingForStart, 0xFFFFFFFF, 0xFFFFFFFF) ∧
    [[HostCall.cmd ⟨0x9, []⟩, .resetCounters], [.resetCounters, .cmd ⟨0x9, []⟩]].map (fun calls =>
        ((nextOf (step (restarting calls))).bind fun s => nextOf (step s)).map fun s =>
          (s.pst, s.idx, s.host.lastDelivered, s.host.lastAcknowledged)) =
      List.replicate 2 (some (.waitingForStart, 0, 0xFFFFFFFF, 0xFFFFFFFF)) := by decide

/-- R212: a timed-out packet is not handed to SEG_DEC, whatever else its record says. -/
theorem test_timed_out_is_no_message :
    hostMove .default (some (.packet { payload := segOk, byteCount := 15, timedOut := true, wellFormed := true }))
        { HostState.reset with phase := .recvWaiting (.data 64) } =
      .issue (.cmd ⟨0x4, [.timeout (-1)]⟩) { HostState.reset with phase := .recvWaiting (.data 64) } := by decide

/-! ### Witnesses: values that meet every hypothesis of a statement -/

/-- CRC_CHECK answers the pure check's value, at the state after reset. -/
theorem crcCheck_at_reset {bytes : Bytes} {v : Bool} (h : checksumValid .default bytes = v) :
    exec (.crcCheck bytes) State.reset = .next { State.reset with results := State.reset.results ++ [.checksumValid v] } := by
  subst h; rfl

/-- The states of these witnesses that stand in READING meet the invariants, up to the full buffer. -/
theorem parser_reading_inv {idx : Nat} (h : idx ≤ 64) : (parser .reading idx).Inv :=
  ⟨Config.default_wf, rfl, fun _ _ => rfl, by simp [parser], by simp [parser], h, fun _ _ => by
    show (0x00 : Byte) ≠ 0x04
    decide, (by decide : (0 : Nat) < 2 ^ 32)⟩

theorem partialText_inv : partialText.Inv :=
  ⟨Config.default_wf, by decide, fun a h => by
      have h' : 64 ≤ a := h
      simp only [partialText, Memory.read]
      rw [if_neg (by omega), if_neg (by omega), if_neg (by omega)],
    by decide, by decide, by decide, by decide, by decide⟩

/-- In WAITING_FOR_START, with what the invariants do not speak of at any value. -/
theorem waiting_inv (s : State) (hc : s.cfg = Config.default) (hp : s.pst = .waitingForStart) (hi : s.idx = 0) (ha : s.acc = [])
    (hk : s.clock = 0) : s.Inv :=
  ⟨by rw [hc]; exact Config.default_wf, by rw [ha]; decide, fun _ _ => by rw [ha]; rfl, by simp [hp], fun _ => hi, by simp [hi], by simp [hi],
    by rw [hk, hc]; decide⟩

/-- At the bound of LEN_MAX, and the DATA bytes next to START and END. -/
theorem witness_DecodeOfEncode :
    (Instr.segEnc true 0xFFFFFFFF 0 []).wf { Config.default with lenMax := some 13 } = true ∧
    (Instr.rxData 0x01).wf Config.default = true ∧ (Instr.rxData 0x03).wf Config.default = true := by decide

/-- An encoding, and a reserved code with operands. -/
theorem witness_DecodeAcceptsOnlyEncodings :
    decode .default (.cmd ⟨0xA, []⟩) = .ok .status ∧ decode .default (.cmd ⟨0xB, [.word 7]⟩) = .ok .reservedB := by decide

theorem witness_DecoderFollowsOpcodeTable :
    decode .default (.cmd ⟨0xF, [.bit true]⟩) = .ok (.reservedCF 0b11) ∧ decode .default (.rx 0x05) = .ok (.rxData 0x05) := by decide

/-- Each class, and the DATA bytes on both sides of END. -/
theorem witness_ReceivedByteClass :
    (0x00 : Byte) = 0x00 ∧ (0x04 : Byte) = 0x04 ∧ ((0x03 : Byte) ≠ 0x00 ∧ (0x03 : Byte) ≠ 0x04) ∧
    ((0x05 : Byte) ≠ 0x00 ∧ (0x05 : Byte) ≠ 0x04) := by decide

theorem witness_StepRunsCommand :
    ∃ (s : State) (r : RawCmd) (later : List HostCall) (i : Instr),
      s.op = .idle ∧ s.host.phase = .idle ∧ s.host.calls = .cmd r :: later ∧ decode s.cfg (.cmd r) = .ok i ∧
      s.beginTurn.turn.powersOn = false :=
  ⟨{ State.reset with host := { HostState.reset with calls := [.cmd ⟨0xA, []⟩] }, agenda := [Turn.quiet] }, ⟨0xA, []⟩, [], .status, by decide⟩

theorem witness_StepRunsReceivedByte :
    ∃ (s : State) (timeout : Int) (t0 n : Nat) (b : Byte) (rest : Bytes) (i : Instr),
      s.op = .receiving timeout t0 ∧ s.beginTurn.turn.polls = n + 1 ∧ s.beginTurn.source = b :: rest ∧
      decode s.cfg (.rx b) = .ok i ∧ s.beginTurn.turn.powersOn = false :=
  ⟨{ State.reset with op := .receiving 100 7, agenda := [{ Turn.quiet with arrivals := [0x04], polls := 1 }] }, 100, 7, 0, 0x04, [],
    .rxEnd, by decide⟩

theorem witness_CommandWaitsWhileBusy :
    ∃ s t : State, s.op ≠ .idle ∧ s.beginTurn.turn.powersOn = false ∧ step s = .next t :=
  ⟨{ State.reset with op := .sending [0x00, 0x04], agenda := [Turn.quiet] }, _, by decide, by decide, rfl⟩

theorem witness_CommandWhileBusyRefused :
    ∃ (s : State) (i : Instr) (c : RawCmd), encode i = .cmd c ∧ s.op ≠ .idle :=
  ⟨{ State.reset with op := .receiving 0 0 }, .reset, ⟨0x9, []⟩, by decide, by decide⟩

/-- Reserved: 0x0 and both ends of 0xB to 0xF; not reserved: both ends of 0x1 to 0xA. -/
theorem witness_ReservedCodesAnswerIllegal :
    State.reset.op = .idle ∧ ((0x0 : BitVec 4) = 0x0 ∨ 0xB ≤ (0x0 : BitVec 4).toNat) ∧
    ((0xB : BitVec 4) = 0x0 ∨ 0xB ≤ (0xB : BitVec 4).toNat) ∧ ((0xF : BitVec 4) = 0x0 ∨ 0xB ≤ (0xF : BitVec 4).toNat) ∧
    (¬ ((0x1 : BitVec 4) = 0x0 ∨ 0xB ≤ (0x1 : BitVec 4).toNat) ∧ decode State.reset.cfg (cmd 0x1 [strArg []]) = .ok (.b64enc []) ∧
      ∃ t, exec (.b64enc []) State.reset = .next t) ∧
    (¬ ((0xA : BitVec 4) = 0x0 ∨ 0xB ≤ (0xA : BitVec 4).toNat) ∧ decode State.reset.cfg (cmd 0xA []) = .ok .status ∧
      ∃ t, exec .status State.reset = .next t) :=
  ⟨by decide, by decide, by decide, by decide, ⟨by decide, by decide, _, rfl⟩, ⟨by decide, by decide, _, rfl⟩⟩

/-- An operation boundary with text accumulated: the only hypothesis of ReservedInstructionsComplete, SegEncLayout and
ResetClearsParser. -/
theorem witness_operation_boundary : partialText.op = .idle := by decide

/-- Two legal builds: the default one, and one with another alphabet and pad. -/
theorem witness_Base64Alphabet :
    Config.default.wf = true ∧
    ({ Config.default with b64 := { alphabet := rfc4648Alphabet.reverse, pad := 0x2E, decNc := 5 } } : Config).wf = true := by
  decide +kernel

theorem witness_B64decInvertsB64enc : partialText.cfg.wf = true ∧ partialText.op = .idle := ⟨Config.default_wf, by decide⟩

theorem witness_CanonicalTexts : smallest.wf = true := by decide +kernel

theorem witness_B64decFitsBound : partialText.cfg.b64 = .rfc4648 ∧ partialText.op = .idle := by decide

/-- An empty text, a whole group before a tail. -/
theorem witness_B64encGroups :
    State.reset.op = .idle ∧ ([] : Bytes).length % 3 = 0 ∧ ([1, 2, 3] : Bytes).length % 3 = 0 ∧
    (65536 * (0xFF : Byte).toNat + 256 * (0xFF : Byte).toNat + (0xFF : Byte).toNat = 16777215) := by decide

/-- A string, and the same string as `other`. -/
theorem witness_B64encTextProperties :
    ∃ (s : State) (other text : Bytes), s.cfg.wf = true ∧ s.op = .idle ∧
      exec (.b64enc other) s = .next { s with results := s.results ++ [.text text] } :=
  ⟨State.reset, [], [], Config.default_wf, by decide, rfl⟩

/-- The default build has the parameter set of R120. -/
theorem witness_Crc32CheckValue : State.reset.op = .idle ∧ State.reset.cfg.crc = .isoHdlc := by decide

theorem witness_Crc32IsBitSerial : partialText.op = .idle ∧ partialText.cfg.crc = .isoHdlc := by decide

/-- Fewer than four bytes, and four bytes that are a trailer alone. -/
theorem witness_CrcCheckComparesTrailer :
    State.reset.op = .idle ∧ ([0, 0, 0] : Bytes).length < 4 ∧ ([0, 0, 0, 0] : Bytes) = [] ++ [0, 0, 0, 0] := by decide

/-- V-C22, its first bit and its last bit. -/
theorem witness_SingleBitDamageDetected :
    State.reset.op = .idle ∧ State.reset.cfg.crc = .isoHdlc ∧ 0 < 8 * ([0x61, 0x43, 0xBE, 0xB7, 0xE8] : Bytes).length ∧
    39 < 8 * ([0x61, 0x43, 0xBE, 0xB7, 0xE8] : Bytes).length ∧
    exec (.crcCheck [0x61, 0x43, 0xBE, 0xB7, 0xE8]) State.reset =
      .next { State.reset with results := State.reset.results ++ [.checksumValid true] } :=
  ⟨by decide, by decide, by decide, by decide, crcCheck_at_reset (by decide +kernel)⟩

/-- A flag byte with bits 7 to 1 set and no data; twelve bytes; thirteen bytes that fail the check. -/
theorem witness_SegDecByPositionOrFailed :
    State.reset.op = .idle ∧
    ([0xFE, 5, 0, 0, 0, 6, 0, 0, 0] : Bytes) = [0xFE] ++ le32 5 ++ le32 6 ++ [] ∧
    (List.replicate 12 (0x00 : Byte)).length < 13 ∧
    exec (.crcCheck (List.replicate 13 0x00)) State.reset =
      .next { State.reset with results := State.reset.results ++ [.checksumValid false] } :=
  ⟨by decide, by decide, by decide, crcCheck_at_reset (by decide +kernel)⟩

theorem witness_SegDecInvertsSegEnc :
    ∃ (s t : State) (isAck : Bool) (sequenceNumber ackNumber : Word32) (data out : Bytes),
      exec (.segEnc isAck sequenceNumber ackNumber data) s = .next t ∧ t.results = s.results ++ [.bytes out] :=
  ⟨State.reset, _, true, 0xFFFFFFFF, 0, [], _, rfl, rfl⟩

/-- The last bit of a segment without data. -/
theorem witness_SegBitDamageDetected :
    State.reset.op = .idle ∧ State.reset.cfg.crc = .isoHdlc ∧ 103 < 8 * (13 + ([] : Bytes).length) := by decide

/-- Room for exactly the six wire bytes of V-P21. -/
theorem witness_PktSendCompletes :
    ({ State.reset with sinkRoom := 6 } : State).op = .idle ∧
    2 + 4 * ((([0x66] : Bytes).length + 2) / 3) ≤ ({ State.reset with sinkRoom := 6 } : State).sinkRoom := by decide

/-- Room for one byte less, and for none. -/
theorem witness_PktSendWaitsForSink :
    ({ State.reset with sinkRoom := 5 } : State).op = .idle ∧
    ({ State.reset with sinkRoom := 5 } : State).sinkRoom < 2 + 4 * ((([0x66] : Bytes).length + 2) / 3) ∧
    State.reset.sinkRoom < 2 + 4 * ((([0x66] : Bytes).length + 2) / 3) := by decide

theorem witness_SendDrainsIntoSink :
    ∃ (s : State) (rest : Bytes) (turns later : List Turn),
      s.op = .sending rest ∧ rest ≠ [] ∧ s.agenda = turns ++ later ∧ (∀ t ∈ turns, 1 ≤ t.sinkRoom ∧ t.powersOn = false) ∧
      rest.length ≤ turns.length :=
  ⟨{ State.reset with op := .sending [0x00, 0x04], agenda := List.replicate 2 { Turn.quiet with sinkRoom := 1 } }, [0x00, 0x04],
    List.replicate 2 { Turn.quiet with sinkRoom := 1 }, [], by decide⟩

theorem witness_SendHangsOnDeafSink :
    ∃ (s : State) (rest : Bytes) (turns later : List Turn),
      s.op = .sending rest ∧ rest ≠ [] ∧ s.sinkRoom = 0 ∧ s.agenda = turns ++ later ∧ ∀ t ∈ turns, t.sinkRoom = 0 ∧ t.powersOn = false :=
  ⟨{ State.reset with op := .sending [0x04], agenda := [Turn.quiet, Turn.quiet] }, [0x04], [Turn.quiet, Turn.quiet], [], by decide⟩

theorem witness_WaitingTakesOnlyStart : State.reset.pst = .waitingForStart ∧ (0x04 : Byte) ≠ 0x00 ∧ (0x01 : Byte) ≠ 0x00 := by decide

/-- With room, and with a full buffer. -/
theorem witness_ReadingEndsAtEnd :
    (parser .reading 0).pst = .reading ∧ (parser .reading 64).pst = .reading := by decide

/-- V-P14 and V-P16: the last free place. -/
theorem witness_ReadingAppends :
    (parser .reading 63).pst = .reading ∧ (parser .reading 63).idx < (parser .reading 63).cfg.rxCap ∧
    (parser .reading 63).acc.wf = true ∧ (0x41 : Byte) ≠ 0x04 := by decide

theorem witness_ReadingFullAbandons :
    (parser .reading 64).pst = .reading ∧ (parser .reading 64).idx = (parser .reading 64).cfg.rxCap ∧ (0x41 : Byte) ≠ 0x04 := by
  decide

theorem witness_NoByteInPacketReady : (parser .packetReady 20).pst = .packetReady := by decide

/-- V-P2 with as many polls as wire bytes. -/
theorem witness_PktRecvReturnsSentPacket :
    ∃ (s : State) (b rest : Bytes),
      s.cfg.wf = true ∧ s.op = .idle ∧ s.pst = .waitingForStart ∧ s.acc.wf = true ∧ 4 * ((b.length + 2) / 3) ≤ s.cfg.rxCap ∧
      s.source = [0x00] ++ b64Encode s.cfg.b64 b ++ [0x04] ++ rest ∧ 2 + 4 * ((b.length + 2) / 3) ≤ s.turn.polls :=
  ⟨waiting State.reset [0x00, 0x5A, 0x67, 0x3D, 0x3D, 0x04], [0x66], [], by decide +kernel⟩

/-- The payload of 48 bytes whose text just fits RX_CAP = 64. -/
theorem witness_PktRecvReturnsSentPacket_full :
    4 * (((List.replicate 48 (0x00 : Byte)).length + 2) / 3) ≤ State.reset.cfg.rxCap := by decide

theorem witness_PktRecvFollowsRelation : ∃ s : State, s.Inv ∧ s.op = .idle := ⟨partialText, partialText_inv, by decide⟩

theorem witness_PktRecvFrame : ∃ (s t : State) (timeout : Int), exec (.pktRecv timeout) s = .next t ∧ s.acc.wf = true :=
  ⟨partialText, _, 0, rfl, by decide⟩

theorem witness_NegativeWaitNeverTimesOut :
    ∃ (s t : State) (timeout : Int) (t0 : Nat), s.op = .receiving timeout t0 ∧ timeout < 0 ∧
      s.beginTurn.turn.powersOn = false ∧ step s = .next t :=
  ⟨{ State.reset with op := .receiving (-1) 0, agenda := [{ Turn.quiet with testsClock := true }] }, _, -1, 0,
    by decide, by decide, by decide, rfl⟩

/-- A wait whose bound is reached exactly, with no byte waiting; and V-P7. -/
theorem witness_TimedOutKeepsParserValue :
    (∃ (s : State) (timeout : Int) (t0 : Nat), s.op = .receiving timeout t0 ∧ s.pst ≠ .packetReady ∧
      s.beginTurn.turn.powersOn = false ∧ (s.beginTurn.turn.polls = 0 ∨ s.beginTurn.source = []) ∧
      s.beginTurn.turn.testsClock = true ∧ 0 ≤ timeout ∧
      timeout ≤ ((s.beginTurn.clock : Int) - (t0 : Int)) % ((2 ^ s.cfg.clockW : Nat) : Int)) ∧
    (waiting partialText []).op = .idle ∧ (waiting partialText []).pst ≠ .packetReady ∧ (waiting partialText []).turn.polls = 0 ∧
    (waiting partialText []).turn.testsClock = true :=
  ⟨⟨{ partialText with op := .receiving 10 0, agenda := [{ Turn.quiet with elapsed := 10, polls := 1, testsClock := true }] }, 10, 0,
    by decide⟩, by decide⟩

/-- The clock test is due and the bound has passed, and the END just taken completes the packet. -/
theorem witness_CompletionWinsOverTimeout :
    ∃ (s : State) (timeout : Int) (t0 n : Nat) (rest : Bytes),
      s.op = .receiving timeout t0 ∧ s.pst = .reading ∧ s.beginTurn.turn.polls = n + 1 ∧ s.beginTurn.source = 0x04 :: rest ∧
      s.beginTurn.turn.powersOn = false :=
  ⟨{ partialText with
      op := .receiving 0 0
      agenda := [{ arrivals := [0x04], elapsed := 5, sinkRoom := 0, polls := 1, testsClock := true, powersOn := false }] },
    0, 0, 0, [], by decide⟩

/-- The text fills the buffer of 64 bytes. -/
theorem witness_RecvContinuesPartialText :
    ∃ (s : State) (more rest : Bytes),
      s.Inv ∧ s.op = .idle ∧ s.pst = .reading ∧ (∀ b ∈ more, b ≠ 0x04) ∧ s.idx + more.length ≤ s.cfg.rxCap ∧
      s.source = more ++ [0x04] ++ rest ∧ more.length < s.turn.polls :=
  ⟨waiting (parser .reading 63) [0x3D, 0x04], [0x3D], [],
    (parser_reading_inv (by decide : 63 ≤ 64)).congr rfl rfl rfl rfl rfl, by decide⟩

/-- At the bound itself. -/
theorem witness_BoundedWaitEnds :
    ∃ (s : State) (timeout : Int) (t0 : Nat), s.Inv ∧ s.op = .receiving timeout t0 ∧ 0 ≤ timeout ∧
      s.beginTurn.turn.powersOn = false ∧ s.beginTurn.turn.testsClock = true ∧
      timeout ≤ ((s.beginTurn.clock : Int) - (t0 : Int)) % ((2 ^ s.cfg.clockW : Nat) : Int) :=
  ⟨{ partialText with
      op := .receiving 100 0xFFFFFFFF
      clock := 0xFFFFFFFF
      agenda := [{ Turn.quiet with elapsed := 100, testsClock := true }] },
    100, 0xFFFFFFFF,
    { partialText_inv.congr (t := { partialText with op := .receiving 100 0xFFFFFFFF }) rfl rfl rfl rfl rfl with
      clockBound := by decide },
    by decide⟩

/-- The least payload whose text exceeds RX_CAP = 64, 49 bytes (V-S9): as the operation is issued with a bound of 1 ms, and while one
without a bound runs and tests the CLOCK. -/
theorem witness_OversizedPacketLeavesNoTrace :
    ∃ (b rest : Bytes), Config.default.rxCap < 4 * ((b.length + 2) / 3) ∧
      (∃ (s : State) (timeout : Int), s.Inv ∧ s.cfg = .default ∧ s.pst = .waitingForStart ∧ s.op = .idle ∧
        s.source = [0x00] ++ b64Encode s.cfg.b64 b ++ [0x04] ++ rest ∧ s.turn.polls = 2 + 4 * ((b.length + 2) / 3) ∧
        (s.turn.testsClock = true → timeout ≠ 0)) ∧
      ∃ (s : State) (timeout : Int) (t0 : Nat), s.Inv ∧ s.cfg = .default ∧ s.pst = .waitingForStart ∧
        s.op = .receiving timeout t0 ∧ s.beginTurn.source = [0x00] ++ b64Encode s.cfg.b64 b ++ [0x04] ++ rest ∧
        s.beginTurn.turn.polls = 2 + 4 * ((b.length + 2) / 3) ∧ s.beginTurn.turn.powersOn = false ∧
        (s.beginTurn.turn.testsClock = true → timeout < 0 ∨
          ((s.beginTurn.clock : Int) - (t0 : Int)) % ((2 ^ s.cfg.clockW : Nat) : Int) < timeout) :=
  ⟨List.replicate 49 0x00, [0x05], by decide,
    ⟨{ State.reset with
        source := [0x00] ++ b64Encode .rfc4648 (List.replicate 49 0x00) ++ [0x04] ++ [0x05]
        turn := { Turn.quiet with polls := 70, testsClock := true } },
      1, waiting_inv _ rfl rfl rfl rfl rfl, rfl, rfl, rfl, rfl, by decide, by decide⟩,
    { State.reset with
      op := .receiving (-1) 0
      source := [0x00] ++ b64Encode .rfc4648 (List.replicate 49 0x00) ++ [0x04] ++ [0x05]
      agenda := [{ Turn.quiet with polls := 70, testsClock := true }] },
    -1, 0, waiting_inv _ rfl rfl rfl rfl rfl, rfl, rfl, rfl, by decide +kernel, by decide, by decide, by decide⟩

/-- Power goes off and on again while a packet is half sent, and while one is half received. -/
theorem witness_PowerOnInterrupts :
    ({ State.reset with op := .sending [0x04], agenda := [{ Turn.quiet with powersOn := true }] } : State).beginTurn.turn.powersOn =
      true ∧
    ({ partialText with op := .receiving 0 0, agenda := [{ Turn.quiet with powersOn := true }] } : State).beginTurn.turn.powersOn =
      true := by decide

theorem witness_StatusShowsParserValue :
    ((parser .reading 64).Inv ∧ (parser .reading 64).op = .idle) ∧ (partialText.Inv ∧ partialText.op = .idle) :=
  ⟨⟨parser_reading_inv (by decide), by decide⟩, partialText_inv, by decide⟩

/-- A state that meets the invariants, and a step of it that answers next; the same for the statements about every step. -/
theorem witness_StepKeepsParserInvariants : ∃ s t : State, s.Inv ∧ s.op = .receiving (-1) 0 ∧ step s = .next t :=
  ⟨{ partialText with op := .receiving (-1) 0, agenda := [{ Turn.quiet with arrivals := [0x3D], polls := 1 }] }, _,
    partialText_inv.congr rfl rfl rfl rfl rfl, rfl, rfl⟩

theorem witness_NoStepFaults : (parser .reading 64).Inv := parser_reading_inv (by decide)

theorem witness_StepOnlyAppends : ∃ s t : State, step s = .next t :=
  ⟨{ State.reset with op := .sending [0x00, 0x04], agenda := [{ Turn.quiet with sinkRoom := 1 }] }, _, rfl⟩

theorem witness_SourceInOrder : ∃ s t : State, s.source = [0x58, 0x00] ∧ step s = .next t :=
  ⟨{ State.reset with source := [0x58, 0x00], op := .receiving 0 0, agenda := [{ Turn.quiet with polls := 1 }] }, _, rfl, rfl⟩

/-- `send_data` about to get its acknowledgement, the last segment of a session's first round of numbers. -/
def acknowledged : State :=
  { State.reset with
    host := { HostState.reset with lastDelivered := 0xFFFFFFFE, phase := .sendDecoding 0xFFFFFFFF [] }
    results := [.segment { checksumValid := true,
                           fields := { isAck := true, sequenceNumber := 7, ackNumber := 0xFFFFFFFF, data := [], dataLen := 0 } }]
    agenda := [Turn.quiet] }

/-- V-H12: a counter that wraps. -/
theorem witness_CountersAdvanceByOne :
    ∃ s t : State, s.host.Inv ∧ step s = .next t ∧ t.host.lastDelivered = s.host.lastDelivered + 1 ∧ t.host.lastDelivered = 0xFFFFFFFF :=
  ⟨acknowledged, _, rfl, rfl, rfl, rfl⟩

/-- A step that starts a session: a power-on, and each of the HOST's two calls. -/
theorem witness_CountersAdvanceByOne_session :
    (∃ s : State, s.host.Inv ∧ s.StartsSession ∧ s.beginTurn.turn.powersOn = true) ∧
    (∃ s t : State, s.host.Inv ∧ s.StartsSession ∧ step s = .next t ∧ t.host.lastDelivered = 0xFFFFFFFF) ∧
    (∃ s t : State, s.host.Inv ∧ s.StartsSession ∧ step s = .next t ∧ t.host.lastAcknowledged = 0xFFFFFFFF) :=
  ⟨⟨{ State.reset with agenda := [{ Turn.quiet with powersOn := true }] }, trivial, .inl rfl, rfl⟩,
    ⟨restarting [.resetCounters], _, trivial, .inr ⟨rfl, rfl, [], .inl rfl⟩, rfl, rfl⟩,
    ⟨restarting [.newSession], _, trivial, .inr ⟨rfl, rfl, [], .inr rfl⟩, rfl, rfl⟩⟩

theorem witness_StepKeepsCounterInvariant : ∃ s t : State, s.host.Inv ∧ step s = .next t :=
  ⟨acknowledged, _, rfl, rfl⟩

/-- The HOST about to move at an operation boundary, at a place of its procedures, with a last result. -/
def moving (phase : HostPhase) (last : Result) : State :=
  { State.reset with host := { HostState.reset with phase := phase }, results := [last], agenda := [Turn.quiet] }

theorem moving_at_boundary (phase : HostPhase) (last : Result) :
    (moving phase last).op = .idle ∧ (moving phase last).beginTurn.turn.powersOn = false ∧
      (moving phase last).host.phase = phase ∧ (moving phase last).results.getLast? = some last ∧
      (moving phase last).host.lastAcknowledged = 0xFFFFFFFF :=
  ⟨rfl, rfl, rfl, rfl, rfl⟩

/-- A segment that passes the check. -/
def passing (isAck : Bool) (sequenceNumber ackNumber : Word32) : Segment :=
  { checksumValid := true
    fields := { isAck := isAck, sequenceNumber := sequenceNumber, ackNumber := ackNumber, data := [], dataLen := 0 } }

/-- The segment encoded, sent, a timed-out wait, a completed one, and the kinds of reply: a failed check, V-H7, V-H9, V-H10 and V-H11;
and an acknowledgement sent. -/
theorem witness_SendDataSortsReplies :
    (∃ s : State, s.op = .idle ∧ s.beginTurn.turn.powersOn = false ∧ s.host.phase = .sendEncoding 0 ∧
      s.results.getLast? = some (.bytes segOk)) ∧
    (∃ s : State, s.op = .idle ∧ s.beginTurn.turn.powersOn = false ∧ s.host.phase = .sendSending 0 segOk) ∧
    (∀ p ∈ [timedOutPacket [], completePacket .rfc4648 []], (∃ s : State, s.op = .idle ∧ s.beginTurn.turn.powersOn = false ∧
      s.host.phase = .sendWaiting 0 segOk ∧ s.results.getLast? = some (.packet p))) ∧
    (timedOutPacket []).timedOut = true ∧ (completePacket .rfc4648 []).timedOut = false ∧
    (completePacket .rfc4648 []).wellFormed = true ∧
    (∀ r : Segment, ∃ s : State, s.op = .idle ∧ s.beginTurn.turn.powersOn = false ∧ s.host.phase = .sendDecoding 0 segOk ∧
      s.results.getLast? = some (.segment r) ∧ s.host.lastAcknowledged = 0xFFFFFFFF) ∧
    ({ checksumValid := false, fields := default } : Segment).checksumValid = false ∧
    ((passing true 7 0).checksumValid = true ∧ (passing true 7 0).fields.isAck = true ∧ (passing true 7 0).fields.ackNumber = 0) ∧
    ((passing false 0xFFFFFFFF 0).fields.isAck = false ∧ (passing false 0xFFFFFFFF 0).fields.sequenceNumber = 0xFFFFFFFF) ∧
    ((passing false 0 0).fields.isAck = false ∧ (passing false 0 0).fields.sequenceNumber ≠ 0xFFFFFFFF) ∧
    ((passing true 0 1).fields.isAck = true ∧ (passing true 0 1).fields.ackNumber ≠ 0) ∧
    (∃ s : State, s.op = .idle ∧ s.beginTurn.turn.powersOn = false ∧ s.host.phase = .ackSending (.resend 0 segOk)) := by
  have at_ := moving_at_boundary
  exact ⟨⟨_, (at_ _ _).1, (at_ _ _).2.1, (at_ (.sendEncoding 0) (.bytes segOk)).2.2.1, (at_ _ _).2.2.2.1⟩,
    ⟨_, (at_ _ _).1, (at_ _ _).2.1, (at_ (.sendSending 0 segOk) .done).2.2.1⟩,
    fun p _ => ⟨_, (at_ _ _).1, (at_ _ _).2.1, (at_ (.sendWaiting 0 segOk) (.packet p)).2.2.1, (at_ _ _).2.2.2.1⟩,
    rfl, rfl, rfl,
    fun r => ⟨_, (at_ _ _).1, (at_ _ _).2.1, (at_ (.sendDecoding 0 segOk) (.segment r)).2.2.1, (at_ _ _).2.2.2.1, rfl⟩,
    rfl, by decide, by decide, by decide, by decide,
    ⟨_, (at_ _ _).1, (at_ _ _).2.1, (at_ (.ackSending (.resend 0 segOk)) .done).2.2.1⟩⟩

/-- A completed wait and one that timed out; the expected segment (V-H1), a duplicate (V-H2), another number (V-H5) and an ack; an
acknowledgement encoded, and one sent. -/
theorem witness_ReceiveDataSortsSegments :
    (∀ p ∈ [timedOutPacket [], completePacket .rfc4648 []], (∃ s : State, s.op = .idle ∧ s.beginTurn.turn.powersOn = false ∧
      s.host.phase = .recvWaiting .string ∧ s.results.getLast? = some (.packet p))) ∧
    (timedOutPacket []).timedOut = true ∧ (completePacket .rfc4648 []).timedOut = false ∧
    (completePacket .rfc4648 []).wellFormed = true ∧
    (∀ r : Segment, ∃ s : State, s.op = .idle ∧ s.beginTurn.turn.powersOn = false ∧ s.host.phase = .recvDecoding (.data 64) ∧
      s.results.getLast? = some (.segment r) ∧ s.host.lastAcknowledged = 0xFFFFFFFF) ∧
    ((passing false 0 0).checksumValid = true ∧ (passing false 0 0).fields.isAck = false ∧
      (passing false 0 0).fields.sequenceNumber = 0xFFFFFFFF + 1) ∧
    (passing false 0xFFFFFFFF 0).fields.sequenceNumber = 0xFFFFFFFF ∧
    ((passing false 1 0).fields.sequenceNumber ≠ 0xFFFFFFFF + 1 ∧ (passing false 1 0).fields.sequenceNumber ≠ 0xFFFFFFFF) ∧
    (passing true 0 0).fields.isAck ≠ false ∧
    (∃ s : State, s.op = .idle ∧ s.beginTurn.turn.powersOn = false ∧ s.host.phase = .ackEncoding .finish ∧
      s.results.getLast? = some (.bytes segAck)) ∧
    (∃ s : State, s.op = .idle ∧ s.beginTurn.turn.powersOn = false ∧ s.host.phase = .ackSending (.awaitMore .string)) := by
  have at_ := moving_at_boundary
  exact ⟨fun p _ => ⟨_, (at_ _ _).1, (at_ _ _).2.1, (at_ (.recvWaiting .string) (.packet p)).2.2.1, (at_ _ _).2.2.2.1⟩,
    rfl, rfl, rfl,
    fun r => ⟨_, (at_ _ _).1, (at_ _ _).2.1, (at_ (.recvDecoding (.data 64)) (.segment r)).2.2.1, (at_ _ _).2.2.2.1, rfl⟩,
    by decide, by decide, by decide, by decide,
    ⟨_, (at_ _ _).1, (at_ _ _).2.1, (at_ (.ackEncoding .finish) (.bytes segAck)).2.2.1, (at_ _ _).2.2.2.1⟩,
    ⟨_, (at_ _ _).1, (at_ _ _).2.1, (at_ (.ackSending (.awaitMore .string)) .done).2.2.1⟩⟩

/-- Exactly `max_bytes`, one byte more (V-H3, V-H4), and a string. -/
theorem witness_DeliveryReturns :
    ∀ r ∈ [Receiver.data 2, .data 1, .string], ∃ s : State, s.op = .idle ∧ s.beginTurn.turn.powersOn = false ∧
      s.host.phase = .ackSending (.deliver 1 [0x4F, 0x4B] ([0x4F, 0x4B] : Bytes).length r) :=
  fun r _ => ⟨{ State.reset with
      host := { HostState.reset with phase := .ackSending (.deliver 1 [0x4F, 0x4B] 2 r) }, agenda := [Turn.quiet] }, rfl, rfl, rfl⟩

/-- For every call. -/
theorem witness_ProceduresBegin :
    ∀ call : HostCall, ∃ (s : State) (later : List HostCall), s.op = .idle ∧ s.beginTurn.turn.powersOn = false ∧
      s.host.phase = .idle ∧ s.host.calls = call :: later :=
  fun call => ⟨{ State.reset with host := { HostState.reset with calls := [call] }, agenda := [Turn.quiet] }, [], rfl, rfl, rfl, rfl⟩

/-- Room for exactly the 22 wire bytes, and LEN_MAX at exactly the 20 text bytes. -/
theorem witness_SendAckReachesWire :
    ∃ (s : State) (number : Word32) (calls : List HostCall) (t1 t2 t3 : Turn) (later : List Turn),
      s.op = .idle ∧ s.cfg.fits 20 = true ∧ s.host.phase = .idle ∧ s.host.calls = .sendAck number :: calls ∧
      s.agenda = t1 :: t2 :: t3 :: later ∧ t1.powersOn = false ∧ t2.powersOn = false ∧ t3.powersOn = false ∧
      22 ≤ s.sinkRoom + t1.sinkRoom + t2.sinkRoom :=
  ⟨{ State.reset with
      cfg := { Config.default with lenMax := some 20 }
      host := { HostState.reset with calls := [.sendAck 0] }
      agenda := [{ Turn.quiet with sinkRoom := 20 }, { Turn.quiet with sinkRoom := 2 }, Turn.quiet] },
    0, [], { Turn.quiet with sinkRoom := 20 }, { Turn.quiet with sinkRoom := 2 }, Turn.quiet, [], by decide⟩

end Sys2Proof.Tests
end

namespace Sys2Proof.Machine

/-! ### 32-bit fields by arithmetic (R12) -/

/-- The byte cut out at bit `k` is the value divided by `2 ^ k`, modulo 256. -/
theorem extractByte_eq_ofNat_div (v : Word32) (k : Nat) : v.extractLsb' k 8 = BitVec.ofNat 8 (v.toNat / 2 ^ k) := by
  rw [← Nat.shiftRight_eq_div_pow]
  rfl

/-- A byte takes its value modulo 256. -/
theorem byteOfNat_mod (n : Nat) : BitVec.ofNat 8 (n % 256) = BitVec.ofNat 8 n :=
  BitVec.eq_of_toNat_eq (by simp)

/-- Byte `k` of `LE32` is the digit `k` of the value in base 256 (R12). -/
theorem le32_eq_digits (v : Word32) : le32 v =
    [BitVec.ofNat 8 (v.toNat % 256), BitVec.ofNat 8 (v.toNat / 256 % 256), BitVec.ofNat 8 (v.toNat / 65536 % 256),
      BitVec.ofNat 8 (v.toNat / 16777216)] := by
  simp [le32, extractByte_eq_ofNat_div, byteOfNat_mod]

/-- In a concatenation the low word stands below the high one, so the value is a sum. -/
theorem toNat_append_eq_add {m n : Nat} (hi : BitVec m) (lo : BitVec n) :
    (hi ++ lo).toNat = lo.toNat + 2 ^ n * hi.toNat := by
  rw [BitVec.toNat_append, ← Nat.shiftLeft_add_eq_or_of_lt lo.isLt, Nat.shiftLeft_eq]
  ring

/-- `unLE32` is the sum of its bytes, weighted by the powers of 256 (R12). -/
theorem toNat_readLe32 (s : Bytes) (a : Nat) : (readLe32 s a).toNat =
    (byteAt s a).toNat + 256 * (byteAt s (a + 1)).toNat + 65536 * (byteAt s (a + 2)).toNat +
      16777216 * (byteAt s (a + 3)).toNat := by
  simp only [readLe32, toNat_append_eq_add]
  omega

/-- A field after `before` is read as one that stands at offset 0. -/
theorem readLe32_between (before field after : Bytes) :
    readLe32 (before ++ field ++ after) before.length = readLe32 (field ++ after) 0 := by
  rw [List.append_assoc]
  exact readLe32_append before (field ++ after) 0

/-- Settles O22: both directions by their digits in base 256, and a field read back where `LE32` laid it down. -/
theorem littleEndianFields : Obligations.LittleEndianFields := by
  refine ⟨le32_eq_digits, fun b0 b1 b2 b3 before after => ?_, fun v before after => ?_⟩
  · rw [readLe32_between, toNat_readLe32]
    rfl
  · rw [readLe32_between, readLe32_le32]

end Sys2Proof.Machine

namespace Sys2Proof.Machine

/-! ### The class of a received byte (R62) -/

@[simp] theorem decode_rx (c : Config) (b : Byte) : decode c (.rx b) = .ok (classify b) := rfl

@[simp] theorem classify_startByte : classify startByte = .rxStart := if_pos rfl

@[simp] theorem classify_endByte : classify endByte = .rxEnd := by decide

/-- Every byte but the two delimiters is DATA. -/
theorem classify_of_ne {b : Byte} (hstart : b ≠ startByte) (hend : b ≠ endByte) : classify b = .rxData b := by
  rw [classify, if_neg hstart, if_neg hend]

/-- Settles O5: `decode` classifies a received byte in every build, and each clause is one class. -/
theorem receivedByteClass : Obligations.ReceivedByteClass := by
  refine fun c b => ⟨?rxStart, ?rxEnd, ?rxData⟩
  case rxStart =>
    rintro rfl
    exact congrArg Except.ok classify_startByte
  case rxEnd =>
    rintro rfl
    exact congrArg Except.ok classify_endByte
  case rxData =>
    intro hstart hend
    rw [decode_rx, classify_of_ne hstart hend]

end Sys2Proof.Machine

namespace Sys2Proof.Machine

/-! ### The parser step, rule by rule (R103 to R106), and the three classes of byte that run it -/

theorem exec_rxStart (s : State) : exec .rxStart s = receiveByte startByte s := rfl

theorem exec_rxEnd (s : State) : exec .rxEnd s = receiveByte endByte s := rfl

theorem exec_rxData (b : Byte) (s : State) : exec (.rxData b) s = receiveByte b s := rfl

theorem startByte_ne_endByte : startByte ≠ endByte := by decide

section
variable {s : State} {b : Byte}

theorem parserStep_waiting_start (hp : s.pst = .waitingForStart) :
    parserStep startByte s = { s with pst := .reading, idx := 0 } := by
  simp [parserStep, hp]

theorem parserStep_waiting_discard (hp : s.pst = .waitingForStart) (hb : b ≠ startByte) : parserStep b s = s := by
  simp [parserStep, hp, hb]

theorem parserStep_reading_end (hp : s.pst = .reading) : parserStep endByte s = { s with pst := .packetReady } := by
  simp [parserStep, hp]

theorem parserStep_reading_append (hp : s.pst = .reading) (hb : b ≠ endByte) (hroom : s.idx < s.cfg.rxCap) :
    parserStep b s = { s with acc := s.acc.write s.idx b, idx := s.idx + 1 } := by
  simp [parserStep, hp, hb, hroom]

theorem parserStep_reading_full (hp : s.pst = .reading) (hb : b ≠ endByte) (hfull : s.cfg.rxCap ≤ s.idx) :
    parserStep b s = { s with pst := .waitingForStart, idx := 0 } := by
  simp [parserStep, hp, hb, Nat.not_lt.mpr hfull, State.clearParser]

end

/-- Settles O31: of the three classes only RX_START carries START; a byte of the other two is discarded. -/
theorem waitingTakesOnlyStart : Obligations.WaitingTakesOnlyStart := by
  intro s b hp
  have hready : s.pst ≠ .packetReady := by simp [hp]
  refine ⟨?rxStart, ?rxEnd, fun hb => ?rxData⟩
  case rxStart => rw [exec_rxStart, receiveByte_eq hready, parserStep_waiting_start hp]
  case rxEnd => rw [exec_rxEnd, receiveByte_eq hready, parserStep_waiting_discard hp startByte_ne_endByte.symm]
  case rxData => rw [exec_rxData, receiveByte_eq hready, parserStep_waiting_discard hp hb]

/-- Settles O32: the parser tests for END before it tests for room, so IDX does not matter. -/
theorem readingEndsAtEnd : Obligations.ReadingEndsAtEnd := by
  intro s hp
  rw [exec_rxEnd, receiveByte_eq (by simp [hp]), parserStep_reading_end hp]

/-- Settles O33: the new ACC is one write at IDX, and a canonical memory reads that write back at IDX alone. -/
theorem readingAppends : Obligations.ReadingAppends := by
  intro s b hp hroom hwf
  have hready : s.pst ≠ .packetReady := by simp [hp]
  refine ⟨⟨_, ?rxStart, Memory.read_write hwf s.idx startByte⟩, fun hb => ⟨_, ?rxData, Memory.read_write hwf s.idx b⟩⟩
  case rxStart => rw [exec_rxStart, receiveByte_eq hready, parserStep_reading_append hp startByte_ne_endByte hroom]
  case rxData => rw [exec_rxData, receiveByte_eq hready, parserStep_reading_append hp hb hroom]

/-- Settles O34: a START that finds the buffer full is dropped as any byte but END is. -/
theorem readingFullAbandons : Obligations.ReadingFullAbandons := by
  intro s b hp hfull
  have hready : s.pst ≠ .packetReady := by simp [hp]
  refine ⟨?rxStart, fun hb => ?rxData⟩
  case rxStart => rw [exec_rxStart, receiveByte_eq hready, parserStep_reading_full hp startByte_ne_endByte hfull.ge]
  case rxData => rw [exec_rxData, receiveByte_eq hready, parserStep_reading_full hp hb hfull.ge]

end Sys2Proof.Machine

namespace Sys2Proof.Machine

/-! ### The comparison of CRC_CHECK (R123) -/

/-- At an operation boundary CRC_CHECK answers the pure check. -/
theorem exec_crcCheck_idle {s : State} (h : s.op = .idle) (bytes : Bytes) :
    exec (.crcCheck bytes) s = .next (s.respond (.checksumValid (checksumValid s.cfg bytes))) :=
  respondWith_idle h _

theorem slice_append_left (head tail : Bytes) : slice (head ++ tail) 0 head.length = head := by
  simp [slice]

theorem checksumValid_of_length_lt {bytes : Bytes} (h : bytes.length < 4) (c : Config) : checksumValid c bytes = false := by
  rw [checksumValid, decide_eq_false (Nat.not_le.mpr h), Bool.false_and]

/-- Where the last four bytes are told apart, the check compares the CRC-32 of the others with the field they are. -/
theorem checksumValid_append {trailer : Bytes} (h : trailer.length = 4) (c : Config) (head : Bytes) :
    checksumValid c (head ++ trailer) = true ↔ crc32 c.crc head = readLe32 trailer 0 := by
  have hlen : 4 ≤ (head ++ trailer).length := by simp [h]
  have hoff : (head ++ trailer).length - 4 = head.length := by simp [h]
  have hfield : readLe32 (head ++ trailer) head.length = readLe32 trailer 0 := readLe32_append head trailer 0
  rw [checksumValid, decide_eq_true hlen, Bool.true_and, beq_iff_eq, hoff, slice_append_left, readField_eq, hfield]

/-- Settles O20: two 32-bit words are equal where their values are, and the trailer's value is the sum of its bytes. -/
theorem crcCheckComparesTrailer : Obligations.CrcCheckComparesTrailer := by
  intro s bytes hidle
  refine ⟨checksumValid s.cfg bytes, exec_crcCheck_idle hidle bytes, ?short, ?trailer⟩
  case short => exact fun hshort => checksumValid_of_length_lt hshort s.cfg
  case trailer =>
    rintro head b0 b1 b2 b3 rfl
    rw [checksumValid_append rfl, ← BitVec.toNat_inj, toNat_readLe32]
    rfl

end Sys2Proof.Machine

namespace Sys2Proof.Machine

/-! ### The layout of a segment (R63, R131) -/

/-- At an operation boundary SEG_ENC answers the encoded segment. -/
theorem exec_segEnc_idle {s : State} (h : s.op = .idle) (isAck : Bool) (q k : Word32) (data : Bytes) :
    exec (.segEnc isAck q k data) s = .next (s.respond (.bytes (encodeSegment s.cfg isAck q k data))) :=
  respondWith_idle h _

/-- The slice that begins where `before` ends and is as long as `field` is `field`. -/
theorem slice_between (before field after : Bytes) {a b : Nat} (ha : before.length = a) (hb : a + field.length = b) :
    slice (before ++ (field ++ after)) a b = field := by
  subst ha hb
  simp [slice]

/-- The flag byte is 0x01 for an acknowledgement and 0x00 for data (R64). -/
theorem flagByte_eq_ite (isAck : Bool) : flagByte isAck = if isAck then 0x01 else 0x00 := by cases isAck <;> rfl

/-- The covered bytes field by field, whatever follows them. -/
theorem segmentHead_append (o : ByteOrder) (isAck : Bool) (q k : Word32) (data after : Bytes) :
    segmentHead o isAck q k data ++ after = [flagByte isAck] ++ (le32 q ++ (le32 k ++ (data ++ after))) := by
  simp only [segmentHead, writeField_eq, List.append_assoc]

theorem withTrailer_eq (c : Config) (head : Bytes) : withTrailer c head = head ++ le32 (crc32 c.crc head) := by
  rw [withTrailer, writeField_eq]

/-- Settles O23: each field is the slice between those laid down before it and those after it. -/
theorem segEncLayout : Obligations.SegEncLayout := by
  intro s isAck q k data hidle
  refine ⟨_, exec_segEnc_idle hidle isAck q k data, ?_⟩
  rw [encodeSegment, withTrailer_eq]
  have hlen := length_segmentHead s.cfg.byteOrder isAck q k data
  have hfields := segmentHead_append s.cfg.byteOrder isAck q k data
  generalize segmentHead s.cfg.byteOrder isAck q k data = head at hlen hfields ⊢
  have hcovered (trailer : Bytes) : slice (head ++ trailer) 0 (9 + data.length) = head := hlen ▸ slice_append_left head trailer
  refine ⟨?length, ?flagField, ?sequenceField, ?ackField, ?dataField, ?trailerField⟩
  case length => rw [List.length_append, hlen, length_le32]; omega
  case flagField => rw [hfields, ← flagByte_eq_ite]; exact slice_between [] [flagByte isAck] _ rfl rfl
  case sequenceField => rw [hfields]; exact slice_between [flagByte isAck] (le32 q) _ rfl rfl
  case ackField => rw [hfields]; exact slice_between ([flagByte isAck] ++ le32 q) (le32 k) _ rfl rfl
  case dataField => rw [hfields]; exact slice_between ([flagByte isAck] ++ le32 q ++ le32 k) data _ rfl rfl
  case trailerField =>
    have hend : 9 + data.length + (le32 (crc32 s.cfg.crc head)).length = 13 + data.length := by rw [length_le32]; omega
    rw [hcovered, ← List.append_nil (le32 _)]
    exact slice_between head _ [] hlen hend

end Sys2Proof.Machine

namespace Sys2Proof.Machine

/-! ### RESET and STATUS (R140, R141) -/

/-- At an operation boundary RESET clears the parser value and answers that it is done. -/
theorem exec_reset_idle {s : State} (h : s.op = .idle) : exec .reset s = .next (s.clearParser.respond .done) :=
  atBoundary_idle h fun s => .next (s.clearParser.respond .done)

/-- At an operation boundary STATUS answers the view of the parser value. -/
theorem exec_status_idle {s : State} (h : s.op = .idle) :
    exec .status s = .next (s.respond (.status (statusView s.pst s.idx))) :=
  respondWith_idle h _

/-- Settles O45: RESET and power-on clear the same parser value, and at a boundary no operation is there to be ended. -/
theorem resetClearsParser : Obligations.ResetClearsParser := by
  intro s hidle
  refine ⟨exec_reset_idle hidle, fun t ht => ?_⟩
  obtain rfl : s.clearParser.respond .done = t := Host.Outcome.next.inj ((exec_reset_idle hidle).symm.trans ht)
  exact ⟨rfl, rfl, rfl, hidle⟩

/-- An IDX of 14 bits is shown uncut above the two bits of PST. -/
theorem toNat_statusView {idx : Nat} (h : idx < 2 ^ 14) (pst : ParserState) :
    (statusView pst idx).toNat = 4 * idx + pst.code.toNat := by
  rw [statusView, toNat_append_eq_add, BitVec.toNat_ofNat, Nat.mod_eq_of_lt h]
  omega

/-- Only PACKET_READY has a code above 1. -/
theorem ParserState.code_toNat_le_one {pst : ParserState} (h : pst ≠ .packetReady) : pst.code.toNat ≤ 1 := by
  cases pst with
  | waitingForStart => decide
  | reading => decide
  | packetReady => contradiction

theorem ParserState.code_toNat_eq_zero {pst : ParserState} : pst.code.toNat = 0 ↔ pst = .waitingForStart := by
  cases pst <;> decide

/-- In a legal build IDX fits the 14 bits of STATUS (R8, R24 (c), R141). -/
theorem State.Inv.idx_fits_status {s : State} (h : s.Inv) : s.idx < 2 ^ 14 :=
  h.idxBound.trans_lt (Config.rxCap_wf h.cfgWf).2

/-- Settles O47: IDX fits its field, and the rest are the invariants of the parser value read off the sum. -/
theorem statusShowsParserValue : Obligations.StatusShowsParserValue := by
  intro s hinv hidle
  have hview := toNat_statusView hinv.idx_fits_status s.pst
  have hcode := ParserState.code_toNat_le_one hinv.notReady
  have hlow : (statusView s.pst s.idx).toNat % 4 = s.pst.code.toNat := by omega
  refine ⟨statusView s.pst s.idx, exec_status_idle hidle, hview, hlow ▸ hcode, fun hzero => ?_⟩
  have hcode0 : s.pst.code.toNat = 0 := hlow.symm.trans hzero
  have hidx0 : s.idx = 0 := hinv.waitingEmpty (ParserState.code_toNat_eq_zero.mp hcode0)
  exact BitVec.eq_of_toNat_eq (by rw [hview, hidx0, hcode0]; rfl)

end Sys2Proof.Machine

namespace Sys2Proof.Machine

/-! ### The operand forms of a CMD, each said once (R42, R74, R76) -/

section
variable {c : Config} {args : List Arg} {i : Instr}

/-- One byte string, its true length in front, it and the result within LEN_MAX. -/
theorem withString_eq_ok {resultLength : Nat → Nat} {mk : Bytes → Instr} : withString c resultLength mk args = .ok i ↔
    ∃ bytes, args = [strArg bytes] ∧ c.fits bytes.length = true ∧ c.fits (resultLength bytes.length) = true ∧ i = mk bytes := by
  constructor
  · intro h
    unfold withString at h
    split at h
    · rename_i len bytes
      split_ifs at h with hlen hfits hresult
      obtain rfl : len = bytes.length := not_not.mp hlen
      exact ⟨bytes, rfl, by simpa using hfits, by simpa using hresult, (Except.ok.inj h).symm⟩
    · cases h
  · rintro ⟨bytes, rfl, hfits, hresult, rfl⟩
    simp [withString, strArg, hfits, hresult]

/-- The operand that the encoder writes is taken back. -/
theorem withString_strArg {resultLength : Nat → Nat} {mk : Bytes → Instr} {bytes : Bytes} (hfits : c.fits bytes.length = true)
    (hresult : c.fits (resultLength bytes.length) = true) : withString c resultLength mk [strArg bytes] = .ok (mk bytes) :=
  withString_eq_ok.mpr ⟨bytes, rfl, hfits, hresult, rfl⟩

theorem withSegment_eq_ok : withSegment c args = .ok i ↔
    ∃ isAck q k data, args = [.bit isAck, .word q, .word k, strArg data] ∧ c.fits data.length = true ∧
      c.fits (segLength data.length) = true ∧ i = .segEnc isAck q k data := by
  constructor
  · intro h
    unfold withSegment at h
    split at h
    · rename_i isAck q k len data
      obtain ⟨bytes, harg, hfits, hresult, rfl⟩ := withString_eq_ok.mp h
      exact ⟨isAck, q, k, bytes, by rw [harg], hfits, hresult, rfl⟩
    · cases h
  · rintro ⟨isAck, q, k, data, rfl, hfits, hresult, rfl⟩
    exact withString_eq_ok.mpr ⟨data, rfl, hfits, hresult, rfl⟩

theorem withTimeout_eq_ok : withTimeout c args = .ok i ↔
    ∃ ms, args = [.timeout ms] ∧ c.fitsTimeout ms = true ∧ i = .pktRecv ms := by
  constructor
  · intro h
    unfold withTimeout at h
    split at h
    · rename_i ms
      split_ifs at h with hfits
      exact ⟨ms, rfl, by simpa using hfits, (Except.ok.inj h).symm⟩
    · cases h
  · rintro ⟨ms, rfl, hfits, rfl⟩
    simp [withTimeout, hfits]

theorem withNothing_eq_ok {j : Instr} : withNothing j args = .ok i ↔ args = [] ∧ i = j := by
  cases args <;> simp [withNothing, eq_comm]

end

/-! ### The decoder and the encoder (R62, R75, R142) -/

/-- The codes of R142. -/
def IsReservedCode (code : BitVec 4) : Prop := code = 0x0 ∨ 0xB ≤ code.toNat


/-- Of the codes 0xC to 0xF the decoder keeps the low two bits. -/
theorem decode_of_code_ge {c : Config} {code : BitVec 4} (h : 0xC ≤ code.toNat) (args : List Arg) :
    decode c (cmd code args) = .ok (.reservedCF (code.extractLsb' 0 2)) := by
  have hcodes : ∀ code : BitVec 4, 0xC ≤ code.toNat → code = 0xC ∨ code = 0xD ∨ code = 0xE ∨ code = 0xF := by decide
  rcases hcodes code h with rfl | rfl | rfl | rfl <;> rfl

/-- The encoder puts back what the decoder keeps of the codes 0xC to 0xF. -/
theorem reservedCF_code {code : BitVec 4} : 0xC ≤ code.toNat → 0b11#2 ++ code.extractLsb' 0 2 = code := by
  revert code
  decide

theorem reservedCF_low : ∀ low : BitVec 2, 0xC ≤ (0b11#2 ++ low).toNat ∧ (0b11#2 ++ low).extractLsb' 0 2 = low := by
  decide

/-- A byte-string operation that decodes carries the one operand that encodes it. -/
theorem withString_encodes {c : Config} {code : BitVec 4} {args : List Arg} {i : Instr} {resultLength : Nat → Nat}
    {mk : Bytes → Instr} (h : withString c resultLength mk args = .ok i)
    (hwf : ∀ bytes, (mk bytes).wf c = (c.fits bytes.length && c.fits (resultLength bytes.length)))
    (henc : ∀ bytes, encode (mk bytes) = cmd code [strArg bytes]) : i.wf c = true ∧ encode i = cmd code args := by
  obtain ⟨bytes, rfl, hfits, hresult, rfl⟩ := withString_eq_ok.mp h
  exact ⟨by rw [hwf, hfits, hresult]; rfl, henc bytes⟩

/-- A defined operation that decodes is well-formed, and is encoded as the CMD it was decoded from. -/
theorem encode_of_decode_defined {c : Config} {code : BitVec 4} {args : List Arg} {i : Instr} (hcode : ¬ IsReservedCode code)
    (h : decode c (cmd code args) = .ok i) : i.wf c = true ∧ encode i = cmd code args := by
  have hcodes : ∀ code : BitVec 4, ¬ (code = 0x0 ∨ 0xB ≤ code.toNat) → code = 0x1 ∨ code = 0x2 ∨ code = 0x3 ∨ code = 0x4 ∨
      code = 0x5 ∨ code = 0x6 ∨ code = 0x7 ∨ code = 0x8 ∨ code = 0x9 ∨ code = 0xA := by decide
  rcases hcodes code hcode with rfl | rfl | rfl | rfl | rfl | rfl | rfl | rfl | rfl | rfl
  · exact withString_encodes (mk := .b64enc) h (fun _ => rfl) fun _ => rfl
  · exact withString_encodes (mk := .b64dec) h (fun _ => (Bool.and_self _).symm) fun _ => rfl
  · exact withString_encodes (mk := .pktSend) h (fun _ => rfl) fun _ => rfl
  · obtain ⟨ms, rfl, hfits, rfl⟩ := withTimeout_eq_ok.mp h
    exact ⟨hfits, rfl⟩
  · exact withString_encodes (mk := .crc32) h (fun _ => (Bool.and_self _).symm) fun _ => rfl
  · exact withString_encodes (mk := .crcCheck) h (fun _ => (Bool.and_self _).symm) fun _ => rfl
  · obtain ⟨isAck, q, k, data, rfl, hfits, hresult, rfl⟩ := withSegment_eq_ok.mp h
    exact ⟨by simp [Instr.wf, hfits, hresult], rfl⟩
  · exact withString_encodes (mk := .segDec) h (fun _ => (Bool.and_self _).symm) fun _ => rfl
  · obtain ⟨rfl, rfl⟩ := withNothing_eq_ok.mp h
    exact ⟨rfl, rfl⟩
  · obtain ⟨rfl, rfl⟩ := withNothing_eq_ok.mp h
    exact ⟨rfl, rfl⟩

/-- A reserved code decodes with any operands, to a constructor of its row (R142). -/
theorem decode_reserved {code : BitVec 4} (hcode : IsReservedCode code) : ∃ i : Instr,
    (∀ c args, decode c (cmd code args) = .ok i) ∧ (∀ c, i.wf c = true) ∧ encode i = cmd code [] ∧
      (i = .reserved0 ∨ i = .reservedB ∨ ∃ low, i = .reservedCF low) := by
  by_cases hCF : 0xC ≤ code.toNat
  · refine ⟨_, fun c args => decode_of_code_ge hCF args, fun c => rfl, ?_, .inr (.inr ⟨_, rfl⟩)⟩
    rw [encode, reservedCF_code hCF]
  · obtain rfl | rfl : code = 0x0 ∨ code = 0xB :=
      hcode.imp_right fun hB => BitVec.eq_of_toNat_eq (Nat.le_antisymm (Nat.lt_succ_iff.mp (Nat.lt_of_not_le hCF)) hB)
    · exact ⟨.reserved0, fun c args => rfl, fun c => rfl, rfl, .inl rfl⟩
    · exact ⟨.reservedB, fun c args => rfl, fun c => rfl, rfl, .inr (.inl rfl)⟩

/-- Settles O1: each operand form takes back what the encoder wrote, within the bounds that well-formedness gives. -/
theorem decodeOfEncode : Obligations.DecodeOfEncode := by
  intro c i hwf
  cases i with
  | b64enc bytes => exact withString_strArg (Bool.and_eq_true_iff.mp hwf).1 (Bool.and_eq_true_iff.mp hwf).2
  | b64dec text => exact withString_strArg (resultLength := id) hwf hwf
  | pktSend bytes => exact withString_strArg (Bool.and_eq_true_iff.mp hwf).1 (Bool.and_eq_true_iff.mp hwf).2
  | pktRecv timeout => exact withTimeout_eq_ok.mpr ⟨timeout, rfl, hwf, rfl⟩
  | crc32 bytes => exact withString_strArg (resultLength := id) hwf hwf
  | crcCheck bytes => exact withString_strArg (resultLength := id) hwf hwf
  | segEnc isAck q k data =>
    exact withSegment_eq_ok.mpr
      ⟨isAck, q, k, data, rfl, (Bool.and_eq_true_iff.mp hwf).1, (Bool.and_eq_true_iff.mp hwf).2, rfl⟩
  | segDec bytes => exact withString_strArg (resultLength := id) hwf hwf
  | reset => rfl
  | status => rfl
  | reserved0 => rfl
  | reservedB => rfl
  | reservedCF low => rw [encode, decode_of_code_ge (reservedCF_low low).1, (reservedCF_low low).2]
  | rxStart => exact congrArg Except.ok classify_startByte
  | rxEnd => exact congrArg Except.ok classify_endByte
  | rxData b =>
    obtain ⟨hstart, hend⟩ : b ≠ startByte ∧ b ≠ endByte := by simpa [Instr.wf, startByte, endByte] using hwf
    exact congrArg Except.ok (classify_of_ne hstart hend)

/-- The class of a byte is well-formed and is encoded as the byte. -/
theorem classify_encodes (c : Config) (b : Byte) : (classify b).wf c = true ∧ encode (classify b) = .rx b := by
  by_cases hstart : b = startByte
  · subst hstart
    rw [classify_startByte]
    exact ⟨rfl, rfl⟩
  · by_cases hend : b = endByte
    · subst hend
      rw [classify_endByte]
      exact ⟨rfl, rfl⟩
    · rw [classify_of_ne hstart hend]
      exact ⟨by simpa [Instr.wf, startByte, endByte] using And.intro hstart hend, rfl⟩

/-- Settles O2: a received byte, a reserved code and a defined code are the three ways to decode. -/
theorem decodeAcceptsOnlyEncodings : Obligations.DecodeAcceptsOnlyEncodings := by
  intro c r i h
  cases r with
  | rx b =>
    obtain rfl : classify b = i := Except.ok.inj h
    exact ⟨(classify_encodes c b).1, .inl (classify_encodes c b).2⟩
  | cmd r =>
    by_cases hcode : IsReservedCode r.code
    · obtain ⟨j, hdecode, hwf, henc, _⟩ := decode_reserved hcode
      obtain rfl : j = i := Except.ok.inj ((hdecode c r.args).symm.trans h)
      exact ⟨hwf c, .inr ⟨r.code, r.args, rfl, henc, hcode⟩⟩
    · obtain ⟨hwf, henc⟩ := encode_of_decode_defined hcode h
      exact ⟨hwf, .inl henc⟩

/-- Each instruction's encoding is taken by its own row. -/
theorem selectRow_encode {c : Config} {i : Instr} (h : i.wf c = true) : selectRow (encode i) = some i.mnemonic := by
  cases i with
  | b64enc bytes => exact Laws.Encoding.b64enc bytes c h
  | b64dec text => exact Laws.Encoding.b64dec text c h
  | pktSend bytes => exact Laws.Encoding.pktSend bytes c h
  | pktRecv timeout => exact Laws.Encoding.pktRecv timeout c h
  | crc32 bytes => exact Laws.Encoding.crc32 bytes c h
  | crcCheck bytes => exact Laws.Encoding.crcCheck bytes c h
  | segEnc isAck q k data => exact Laws.Encoding.segEnc isAck q k data c h
  | segDec bytes => exact Laws.Encoding.segDec bytes c h
  | reset => exact Laws.Encoding.reset c h
  | status => exact Laws.Encoding.status c h
  | reserved0 => exact Laws.Encoding.reserved0 c h
  | reservedB => exact Laws.Encoding.reservedB c h
  | reservedCF low => exact Laws.Encoding.reservedCF low c h
  | rxStart => exact Laws.Encoding.rxStart c h
  | rxEnd => exact Laws.Encoding.rxEnd c h
  | rxData b => exact Laws.Encoding.rxData b c h

/-- Settles O3: a raw form and the encoding of what it decodes to have the same code, and a row looks at no more. -/
theorem decoderFollowsOpcodeTable : Obligations.DecoderFollowsOpcodeTable := by
  intro c r i h
  obtain ⟨hwf, hr⟩ := decodeAcceptsOnlyEncodings c r i h
  rw [← selectRow_encode hwf]
  rcases hr with rfl | ⟨code, args, rfl, henc, _⟩
  · rfl
  · rw [henc, Laws.Encoding.selectRow_cmd]

/-- Settles O4, word by word. -/
theorem wordsDecode : Obligations.WordsDecode := by
  unfold Obligations.WordsDecode
  decide

end Sys2Proof.Machine

namespace Sys2Proof.Machine

/-! ### Invariants of the parser value at reset and through every step (R24, R32, R201) -/

/-- Settles O48: each value is read off `State.reset`. -/
theorem stateAfterReset : Obligations.StateAfterReset := ⟨rfl, rfl, rfl, rfl, rfl⟩

theorem State.reset_inv : State.reset.Inv where
  cfgWf := Config.default_wf
  accWf := rfl
  accBound := fun _ _ => rfl
  notReady := nofun
  waitingEmpty := fun _ => rfl
  idxBound := Nat.zero_le _
  noEnd := fun a ha => absurd ha (Nat.not_lt_zero a)
  clockBound := Nat.two_pow_pos _

/-- Settles O49: the parser value is the cleared one, and the HOST stands in none of its procedures. -/
theorem resetMeetsInvariants : Obligations.ResetMeetsInvariants := ⟨State.reset_inv, trivial⟩

theorem State.Inv.pumpSink {s : State} (h : s.Inv) : (pumpSink s).Inv := by
  rcases pumpSink_cases s with e | ⟨rest, _, ⟨_, e⟩ | ⟨_, e⟩⟩
  · rwa [e]
  · rw [e]; exact h.congr rfl rfl rfl rfl rfl
  · rw [e]; exact h.congr rfl rfl rfl rfl rfl

/-- A CMD's instruction keeps the invariants: it leaves the parser value alone, clears it, or polls. -/
theorem State.Inv.exec_cmd {s t : State} {i : Instr} {c : RawCmd} (h : s.Inv) (hi : encode i = .cmd c)
    (he : exec i s = .next t) : t.Inv := by
  obtain ⟨_, ⟨r, _, rfl⟩ | ⟨g, rfl⟩ | rfl | ⟨bytes, rfl⟩ | ⟨timeout, _, rfl⟩⟩ := exec_cmd_next hi he
  · exact h.congr rfl rfl rfl rfl rfl
  · exact h.congr rfl rfl rfl rfl rfl
  · exact h.cleared rfl rfl rfl rfl rfl
  · exact (h.congr (t := { s with op := .sending (encodePacket s.cfg.b64 bytes) }) rfl rfl rfl rfl rfl).pumpSink
  · exact ((h.congr (t := { s with op := .receiving timeout s.clock }) rfl rfl rfl rfl rfl).pollLoop _).clockTest

/-- The step of a running PKT_RECV that takes a byte keeps the invariants. -/
theorem State.Inv.afterByte_parserStep {s : State} (h : s.Inv) (n : Nat) (b : Byte) :
    (afterByte n (parserStep b s)).Inv := ((h.settle_parserStep b).pollLoop n).clockTest

/-- Settles O50: the turn keeps the invariants, and so does each thing a step can do within it. -/
theorem stepKeepsParserInvariants : Obligations.StepKeepsParserInvariants := by
  intro s t h hstep
  obtain ⟨u, rfl, hcases⟩ := step_next hstep
  have hu := h.beginTurn
  rcases hcases with ⟨_, rfl⟩ | ⟨_, h', _, rfl⟩ | ⟨_, c, h', i, c', _, _, hi, he⟩ | ⟨rest, _, rfl⟩ | ⟨timeout, t0, _, _, rfl⟩ |
    ⟨timeout, t0, n, b, rest, _, _, _, _, rfl⟩
  · exact hu.cleared rfl rfl rfl rfl rfl
  · exact hu.congr rfl rfl rfl rfl rfl
  · exact State.Inv.exec_cmd (hu.congr (t := { s.beginTurn with host := h' }) rfl rfl rfl rfl rfl) hi he
  · exact hu.pumpSink
  · exact hu.clockTest
  · exact State.Inv.afterByte_parserStep (hu.congr (t := { s.beginTurn with source := rest }) rfl rfl rfl rfl rfl) n b

/-- Settles O51: the one fault needs PACKET_READY, which no state that meets the invariants is in. -/
theorem noStepFaults : Obligations.NoStepFaults := fun _ _ h hstep => h.notReady (step_fault hstep)

/-- Settles O35: each class of byte is a parser step, and that is guarded. -/
theorem noByteInPacketReady : Obligations.NoByteInPacketReady := by
  intro s b hp
  have hfault (b : Byte) : receiveByte b s = .fault .parserStepInPacketReady := if_pos hp
  exact ⟨hfault startByte, hfault endByte, hfault b⟩

/-! ### Operation boundaries (R210) -/

theorem pumpSink_host (s : State) : (pumpSink s).host = s.host := by
  rcases pumpSink_cases s with e | ⟨rest, _, ⟨_, e⟩ | ⟨_, e⟩⟩ <;> rw [e]

/-- The step of a running PKT_RECV that takes a byte touches nothing outside the parser, the source, the result and the operation. -/
theorem afterByte_parserStep_outside (n : Nat) (b : Byte) (s : State) (rest : Bytes) :
    (afterByte n (parserStep b { s with source := rest })).outside = s.outside := by
  rw [afterByte_outside, parserStep_outside]
  rfl

/-- Settles O8: what goes on in the step is PKT_SEND or PKT_RECV, and neither touches the HOST. -/
theorem commandWaitsWhileBusy : Obligations.CommandWaitsWhileBusy := by
  intro s t hbusy hpower hstep
  rw [← State.beginTurn_host s]
  obtain ⟨u, rfl, hcases⟩ := step_next hstep
  rcases hcases with ⟨hp, _⟩ | ⟨hidle, _⟩ | ⟨hidle, _⟩ | ⟨rest, _, rfl⟩ | ⟨timeout, t0, _, _, rfl⟩ |
    ⟨timeout, t0, n, b, rest, _, _, _, _, rfl⟩
  · rw [hpower] at hp; cases hp
  · exact absurd hidle hbusy
  · exact absurd hidle hbusy
  · exact pumpSink_host _
  · exact outside_host (clockTest_outside _)
  · exact outside_host (afterByte_parserStep_outside n b _ rest)

theorem respondWith_busy {s : State} (h : s.op ≠ .idle) (r : Result) : respondWith r s = .refused .operationInProgress :=
  atBoundary_busy h _

/-- Settles O9: every operation and every reserved code asks for the boundary first. -/
theorem commandWhileBusyRefused : Obligations.CommandWhileBusyRefused := by
  intro s i c hi hbusy
  cases i with
  | rxStart => cases hi
  | rxEnd => cases hi
  | rxData b => cases hi
  | pktSend bytes => rw [exec, execPktSend, atBoundary_busy hbusy]
  | pktRecv timeout => rw [exec, execPktRecv, atBoundary_busy hbusy]
  | segDec bytes => rw [exec, execSegDec, atBoundary_busy hbusy]
  | reset => rw [exec, execReset, atBoundary_busy hbusy]
  | _ => exact respondWith_busy hbusy _

/-- At an operation boundary the reserved codes answer `illegal` and nothing else (R142). -/
theorem reportIllegal_idle {s : State} (h : s.op = .idle) :
    reportIllegal s = .next { s with results := s.results ++ [.illegal] } := respondWith_idle h .illegal

/-- Settles O11: the three rows answer alike. -/
theorem reservedInstructionsComplete : Obligations.ReservedInstructionsComplete := fun _ _ h =>
  ⟨reportIllegal_idle h, reportIllegal_idle h, reportIllegal_idle h⟩

end Sys2Proof.Machine

namespace Sys2Proof.Machine

/-! ### The clock test (R109, R110) -/

/-- A turn that tests the CLOCK of a bounded wait whose bound has passed times out. -/
theorem clockTest_passed {s : State} {timeout : Int} {t0 : Nat} (ho : s.op = .receiving timeout t0)
    (htests : s.turn.testsClock = true) (hbounded : 0 ≤ timeout) (hpassed : timeout ≤ elapsedSince s.cfg t0 s.clock) :
    clockTest s = timeOut s := by
  simp [clockTest, ho, htests, boundPassed, waitIsBounded, hbounded, hpassed]

/-- A turn that does not test the CLOCK, a wait without bound and a bound not yet reached leave the state alone. -/
theorem clockTest_running {s : State} {timeout : Int} {t0 : Nat} (ho : s.op = .receiving timeout t0)
    (h : s.turn.testsClock = true → timeout < 0 ∨ elapsedSince s.cfg t0 s.clock < timeout) : clockTest s = s := by
  rcases clockTest_cases s with e | ⟨timeout', t0', ho', htests, hpassed, e⟩
  · exact e
  · obtain ⟨rfl, rfl⟩ : timeout = timeout' ∧ t0 = t0' := by simpa using ho.symm.trans ho'
    simp only [boundPassed, waitIsBounded, Bool.and_eq_true, decide_eq_true_eq] at hpassed
    have := h htests
    omega

/-! ### A turn of PKT_RECV: in progress, complete or timed out (R107, R109, R111) -/

/-- How a turn of a PKT_RECV with this bound, begun at `t0`, leads from `s` to `t`: it is still in progress, or it has ended with one
Packet record, which a wait without bound never marks as timed out. -/
def RecvOutcome (timeout : Int) (t0 : Nat) (s t : State) : Prop :=
  (t.op = .receiving timeout t0 ∧ t.results = s.results) ∨
  (t.op = .idle ∧ ∃ p : Packet, t.results = s.results ++ [.packet p] ∧
    (timeout < 0 → p.timedOut = false ∧ p.wellFormed = true))

section
variable {s : State} {timeout : Int} {t0 : Nat}

theorem clockTest_pollLoop_outcome (n : Nat) (ho : s.op = .receiving timeout t0) :
    RecvOutcome timeout t0 s (clockTest (pollLoop n s)) := by
  rcases pollLoop_results n ho with ⟨hop, hres⟩ | ⟨hop, p, hres, hp⟩
  · rcases clockTest_cases (pollLoop n s) with e | ⟨timeout', t0', ho', _, hpassed, e⟩ <;> rw [e]
    · exact .inl ⟨hop, hres⟩
    · obtain ⟨rfl, rfl⟩ : timeout = timeout' ∧ t0 = t0' := by simpa using hop.symm.trans ho'
      refine .inr ⟨rfl, _, congrArg (· ++ [_]) hres, fun hneg => ?_⟩
      simp only [boundPassed, waitIsBounded, Bool.and_eq_true, decide_eq_true_eq] at hpassed
      omega
  · rw [clockTest_idle hop]
    exact .inr ⟨hop, p, hres, fun _ => hp⟩

/-- A byte that completes the packet ends the turn: no further poll, no clock test (R107, R112). -/
theorem afterByte_ready (n : Nat) (hp : s.pst = .packetReady) : afterByte n s = complete s := by
  rw [afterByte, settle_ready hp, pollLoop_ended (by simp), clockTest_idle (complete_op s)]

theorem afterByte_not_ready (n : Nat) (hp : s.pst ≠ .packetReady) : afterByte n s = clockTest (pollLoop n s) := by
  rw [afterByte, settle_not_ready hp]

theorem afterByte_outcome (n : Nat) (ho : s.op = .receiving timeout t0) : RecvOutcome timeout t0 s (afterByte n s) := by
  by_cases hp : s.pst = .packetReady
  · rw [afterByte_ready n hp]
    exact .inr ⟨rfl, _, rfl, fun _ => ⟨rfl, rfl⟩⟩
  · rw [afterByte_not_ready n hp]
    exact clockTest_pollLoop_outcome n ho

/-! ### The step of a running PKT_RECV -/

/-- A turn in which no byte is taken comes down to its clock test. -/
theorem step_receiving_no_byte (ho : s.op = .receiving timeout t0) (hpower : s.beginTurn.turn.powersOn = false)
    (hnone : s.beginTurn.turn.polls = 0 ∨ s.beginTurn.source = []) : step s = .next (clockTest s.beginTurn) := by
  rw [step_powered hpower, stepPowered, State.beginTurn_op, ho]
  show stepReceiving s.beginTurn = _
  unfold stepReceiving
  split
  · simp_all
  · rfl

/-- A turn that polls executes the oldest byte, and goes on after it. -/
theorem step_receiving_runs_byte {n : Nat} {b : Byte} {rest : Bytes} (ho : s.op = .receiving timeout t0)
    (hpower : s.beginTurn.turn.powersOn = false) (hpolls : s.beginTurn.turn.polls = n + 1)
    (hsource : s.beginTurn.source = b :: rest) :
    step s = mapNext (afterByte n) (runRaw (.rx b) { s.beginTurn with source := rest }) := by
  rw [step_powered hpower, stepPowered, State.beginTurn_op, ho]
  show stepReceiving s.beginTurn = _
  rw [stepReceiving, hpolls, hsource]

/-- Outside PACKET_READY that is one parser step. -/
theorem step_receiving_byte {n : Nat} {b : Byte} {rest : Bytes} (ho : s.op = .receiving timeout t0)
    (hpower : s.beginTurn.turn.powersOn = false) (hpolls : s.beginTurn.turn.polls = n + 1)
    (hsource : s.beginTurn.source = b :: rest) (hp : s.pst ≠ .packetReady) :
    step s = .next (afterByte n (parserStep b { s.beginTurn with source := rest })) := by
  rw [step_receiving_runs_byte ho hpower hpolls hsource, runRaw_rx, receiveByte_eq (by simpa using hp), mapNext]

/-- The parser step runs in the turn's state whatever is left in the BYTE SOURCE, so a step of a running PKT_RECV is the turn's polls
and its clock test. -/
theorem step_receiving (ho : s.op = .receiving timeout t0) (hpower : s.beginTurn.turn.powersOn = false)
    (hp : s.pst ≠ .packetReady) :
    step s = .next (clockTest (pollLoop s.beginTurn.turn.polls s.beginTurn)) := by
  have hop : s.beginTurn.op = .receiving timeout t0 := by rw [State.beginTurn_op, ho]
  cases hpolls : s.beginTurn.turn.polls with
  | zero => exact step_receiving_no_byte ho hpower (.inl hpolls)
  | succ n =>
    cases hsource : s.beginTurn.source with
    | nil => rw [step_receiving_no_byte ho hpower (.inr hsource), pollLoop_empty hsource]
    | cons b rest =>
      rw [step_receiving_byte ho hpower hpolls hsource hp, pollLoop_byte hop hsource, afterByte]

end

/-- Settles O7: the byte's class is decoded in every build, and a step executes it. -/
theorem stepRunsReceivedByte : Obligations.StepRunsReceivedByte := by
  intro s timeout t0 n b rest i ho hpolls hsource hdecode hpower
  rw [step_receiving_runs_byte ho hpower hpolls hsource, 
    runRaw_of_decode (s := { s.beginTurn with source := rest }) ((State.beginTurn_cfg s).symm ▸ hdecode)]

/-- Settles O39: of the two ways for a step to go, neither marks a wait without bound as timed out. -/
theorem negativeWaitNeverTimesOut : Obligations.NegativeWaitNeverTimesOut := by
  intro s t timeout t0 ho hneg hpower hstep
  have hop : s.beginTurn.op = .receiving timeout t0 := by rw [State.beginTurn_op, ho]
  have houtcome : RecvOutcome timeout t0 s.beginTurn t := by
    obtain ⟨u, rfl, hcases⟩ := step_next hstep
    rcases hcases with ⟨hp, _⟩ | ⟨hidle, _⟩ | ⟨hidle, _⟩ | ⟨rest, hsend, _⟩ | ⟨_, _, _, _, rfl⟩ |
      ⟨_, _, n, b, rest, _, _, _, _, rfl⟩
    · rw [hpower] at hp; cases hp
    · rw [ho] at hidle; cases hidle
    · rw [ho] at hidle; cases hidle
    · rw [ho] at hsend; cases hsend
    · exact clockTest_pollLoop_outcome 0 hop
    · have h := afterByte_outcome n ((parserStep_op b { s.beginTurn with source := rest }).trans hop)
      rw [RecvOutcome, parserStep_results] at h
      exact h
  rw [RecvOutcome, State.beginTurn_results] at houtcome
  exact houtcome.imp_right fun ⟨hidle, p, hres, hp⟩ => ⟨hidle, p, hres, hp hneg⟩

/-! ### PKT_RECV as it is issued (R109) -/

theorem exec_pktRecv_idle {s : State} (h : s.op = .idle) (hp : s.pst ≠ .packetReady) (timeout : Int) :
    exec (.pktRecv timeout) s = .next (clockTest (pollLoop s.turn.polls { s with op := .receiving timeout s.clock })) := by
  rw [exec, execPktRecv, atBoundary_idle h, if_neg hp]

theorem exec_pktRecv_next {s t : State} {timeout : Int} (h : exec (.pktRecv timeout) s = .next t) :
    s.op = .idle ∧ s.pst ≠ .packetReady ∧
      t = clockTest (pollLoop s.turn.polls { s with op := .receiving timeout s.clock }) := by
  have hidle : s.op = .idle := by
    by_contra hbusy
    rw [commandWhileBusyRefused s (.pktRecv timeout) _ rfl hbusy] at h
    cases h
  have hp : s.pst ≠ .packetReady := by
    intro hp
    rw [exec, execPktRecv, atBoundary_idle hidle, if_pos hp] at h
    cases h
  exact ⟨hidle, hp, Host.Outcome.next.inj (h.symm.trans (exec_pktRecv_idle hidle hp timeout))⟩

/-- The polls write ACC below RX_CAP only. -/
theorem pollLoop_acc_beyond {s : State} (hwf : s.acc.wf = true) {a : Nat} (ha : s.cfg.rxCap ≤ a) (n : Nat) :
    (pollLoop n s).acc.read a = s.acc.read a := by
  refine (pollLoop_induct (fun u => u.cfg = s.cfg ∧ u.acc.wf = true ∧ u.acc.read a = s.acc.read a) ?_ n s ⟨rfl, hwf, rfl⟩).2.2
  rintro u b rest timeout t0 ⟨hcfg, huwf, hread⟩ _ _
  refine ⟨(outside_cfg ((settle_outside _).trans (parserStep_outside _ _))).trans hcfg, ?_⟩
  rw [settle_acc]
  rcases parserStep_cases b { u with source := rest } with ⟨_, _, e⟩ | ⟨_, _, e⟩ | ⟨_, _, e⟩ | ⟨_, _, hroom, e⟩ | ⟨_, _, _, e⟩ |
    ⟨_, e⟩ <;> rw [e]
  case inr.inr.inr.inl =>
    have hne : a ≠ u.idx := by
      have : u.idx < u.cfg.rxCap := hroom
      rw [hcfg] at this
      omega
    exact ⟨Memory.wf_write _ _ huwf, by rw [← hread]; exact (Memory.read_write huwf _ _ a).trans (if_neg hne)⟩
  all_goals exact ⟨huwf, hread⟩

@[simp] theorem clockTest_acc (s : State) : (clockTest s).acc = s.acc := by
  rcases clockTest_cases s with e | ⟨_, _, _, _, _, e⟩ <;> rw [e]
  rfl

/-- Settles O38: PKT_RECV is its polls and its clock test, and each part of the frame is a lemma about the two. -/
theorem pktRecvFrame : Obligations.PktRecvFrame := by
  intro s t timeout h
  obtain ⟨_, _, rfl⟩ := exec_pktRecv_next h
  have hout := (clockTest_outside _).trans (pollLoop_outside s.turn.polls { s with op := .receiving timeout s.clock })
  simp only [State.outside, Prod.mk.injEq] at hout
  obtain ⟨hcfg, hsink, hroom, hclock, hhost, hturn, hagenda, hdraws⟩ := hout
  obtain ⟨k, hsource, _⟩ := pollLoop_source s.turn.polls { s with op := .receiving timeout s.clock }
  refine ⟨hcfg, hsink, hroom, hclock, hhost, hturn, hagenda, hdraws, ⟨k, by rw [clockTest_source, hsource]⟩, ?_, ?_⟩
  · rcases clockTest_pollLoop_outcome (s := { s with op := .receiving timeout s.clock }) s.turn.polls rfl with
      hrunning | ⟨hidle, p, hres, _⟩
    · exact .inr hrunning
    · exact .inl ⟨hidle, p, hres⟩
  · intro hwf a ha
    rw [clockTest_acc]
    exact pollLoop_acc_beyond (s := { s with op := .receiving timeout s.clock }) hwf ha _

/-- Settles O40: in both clauses no byte is taken, and the clock test finds the bound passed. -/
theorem timedOutKeepsParserValue : Obligations.TimedOutKeepsParserValue := by
  have hrecord (s : State) : timedOutPacket s.text = { payload := s.text, byteCount := s.idx, timedOut := true, wellFormed := false } := by
    rw [timedOutPacket, State.text, Memory.length_readPrefix]
  refine ⟨fun s timeout t0 ho _ hpower hnone htests hbounded hpassed => ?_, fun s hidle hp hpolls htests => ?_⟩
  · rw [step_receiving_no_byte ho hpower hnone, clockTest_passed (by rw [State.beginTurn_op, ho]) htests hbounded
      (by rw [State.beginTurn_cfg]; exact hpassed), timeOut, hrecord]
    simp [State.finish, State.respond, State.text]
  · rw [exec_pktRecv_idle hidle hp, hpolls, pollLoop,
      clockTest_passed (s := { s with op := .receiving 0 s.clock }) rfl htests le_rfl (Int.emod_nonneg _ (by simp)), timeOut, hrecord, hidle]
    rfl

/-- Settles O41: END in READING reaches PACKET_READY, and no poll and no clock test comes after it. -/
theorem completionWinsOverTimeout : Obligations.CompletionWinsOverTimeout := by
  intro s timeout t0 n rest ho hp hpolls hsource hpower
  have hend : parserStep endByte { s.beginTurn with source := rest } = { s.beginTurn with source := rest, pst := .packetReady } :=
    parserStep_reading_end (by simpa using hp)
  rw [step_receiving_byte ho hpower hpolls hsource (by simp [hp])]
  show Host.Outcome.next (afterByte n (parserStep endByte _)) = _
  rw [hend, afterByte_ready n rfl]
  simp [complete, completePacket, State.finish, State.respond, State.clearParser, State.text]

/-- Settles O43: a running PKT_RECV that its polls do not complete is met by the clock test, in the turn's state. -/
theorem boundedWaitEnds : Obligations.BoundedWaitEnds := by
  intro s timeout t0 hinv ho hbounded hpower htests hpassed
  have hop : s.beginTurn.op = .receiving timeout t0 := by rw [State.beginTurn_op, ho]
  rw [step_receiving ho hpower hinv.notReady]
  generalize s.beginTurn.turn.polls = n
  have hout := pollLoop_outside n s.beginTurn
  rcases pollLoop_results n hop with ⟨hrunning, hres⟩ | ⟨hidle, p, hres, _⟩
  · rw [clockTest_passed hrunning (by rw [outside_turn hout, htests]) hbounded
      (by rw [outside_cfg hout, outside_clock hout, State.beginTurn_cfg]; exact hpassed)]
    exact ⟨_, _, rfl, rfl, by rw [timeOut_results, hres, State.beginTurn_results]⟩
  · rw [clockTest_idle hidle]
    exact ⟨_, p, rfl, hidle, by rw [hres, State.beginTurn_results]⟩

end Sys2Proof.Machine

namespace Sys2Proof.Machine

/-! ### What the block appends (R34, R47) and what it leaves to the HOST -/

/-- From `s` to `t` the build and the HOST are the same, and the wire and the results only grow. -/
structure BlockAppends (s t : State) : Prop where
  cfg : t.cfg = s.cfg
  sink : s.sink <+: t.sink
  results : s.results <+: t.results
  host : t.host = s.host

theorem BlockAppends.trans {s t u : State} (h : BlockAppends s t) (h' : BlockAppends t u) : BlockAppends s u :=
  ⟨h'.cfg.trans h.cfg, h.sink.trans h'.sink, h.results.trans h'.results, h'.host.trans h.host⟩

/-- Beginning an operation appends nothing. -/
theorem BlockAppends.op (s : State) (o : InProgress) : BlockAppends s { s with op := o } :=
  ⟨rfl, List.prefix_rfl, List.prefix_rfl, rfl⟩

/-- What PKT_RECV does is an append if it adds to the results only. -/
theorem BlockAppends.of_outside {s t : State} (hout : t.outside = s.outside) (hres : s.results <+: t.results) : BlockAppends s t :=
  ⟨outside_cfg hout, (outside_sink hout).symm ▸ List.prefix_rfl, hres, outside_host hout⟩

theorem pumpSink_appends (s : State) : BlockAppends s (pumpSink s) := by
  rcases pumpSink_cases s with e | ⟨rest, _, ⟨_, e⟩ | ⟨_, e⟩⟩ <;> rw [e]
  · exact ⟨rfl, List.prefix_rfl, List.prefix_rfl, rfl⟩
  · exact ⟨rfl, List.prefix_append _ _, List.prefix_append _ _, rfl⟩
  · exact ⟨rfl, List.prefix_append _ _, List.prefix_rfl, rfl⟩

/-- A turn of PKT_RECV adds at most its Packet record. -/
theorem RecvOutcome.appends {timeout : Int} {t0 : Nat} {s t : State} (h : RecvOutcome timeout t0 s t)
    (hout : t.outside = s.outside) : BlockAppends s t := by
  refine .of_outside hout ?_
  rcases h with ⟨_, hres⟩ | ⟨_, p, hres, _⟩ <;> rw [hres]
  exact List.prefix_append _ _

theorem exec_cmd_appends {i : Instr} {c : RawCmd} {s t : State} (hi : encode i = .cmd c) (he : exec i s = .next t) :
    BlockAppends s t := by
  obtain ⟨_, ⟨r, _, rfl⟩ | ⟨g, rfl⟩ | rfl | ⟨bytes, rfl⟩ | ⟨timeout, _, rfl⟩⟩ := exec_cmd_next hi he
  · exact ⟨rfl, List.prefix_rfl, List.prefix_append _ _, rfl⟩
  · exact ⟨rfl, List.prefix_rfl, List.prefix_append _ _, rfl⟩
  · exact ⟨rfl, List.prefix_rfl, List.prefix_append _ _, rfl⟩
  · exact (BlockAppends.op s _).trans (pumpSink_appends _)
  · exact (BlockAppends.op s _).trans ((clockTest_pollLoop_outcome _ rfl).appends ((clockTest_outside _).trans (pollLoop_outside _ _)))

/-! ### The HOST's side of a step -/

/-- The HOST's state after a move. -/
def HostMove.host : HostMove → HostState
  | .issue _ h => h
  | .stay h => h

/-- Everything a step can do, as the HOST sees it: the block goes on, power goes off and on, or the HOST moves at an operation
boundary. -/
theorem step_appends {s t : State} (h : step s = .next t) : BlockAppends s t ∨
    (s.beginTurn.turn.powersOn = true ∧ t = s.beginTurn.powerOn) ∨
    (s.op = .idle ∧ BlockAppends { s with host := (hostMove s.cfg s.results.getLast? s.host).host } t) := by
  have hturn (g : HostState) : BlockAppends { s with host := g } { s.beginTurn with host := g } :=
    ⟨State.beginTurn_cfg s, (State.beginTurn_sink s).symm ▸ List.prefix_rfl,
      (State.beginTurn_results s).symm ▸ List.prefix_rfl, rfl⟩
  have hbegun : BlockAppends s s.beginTurn := ⟨(hturn s.host).cfg, (hturn s.host).sink, (hturn s.host).results, State.beginTurn_host s⟩
  have hmove : hostMove s.beginTurn.cfg s.beginTurn.results.getLast? s.beginTurn.host =
      hostMove s.cfg s.results.getLast? s.host := by
    rw [State.beginTurn_cfg, State.beginTurn_results, State.beginTurn_host]
  obtain ⟨u, rfl, ⟨hp, rfl⟩ | ⟨hidle, h', hm, rfl⟩ | ⟨hidle, c, h', i, c', hm, _, hi, he⟩ | ⟨rest, _, rfl⟩ |
    ⟨timeout, t0, ho, _, rfl⟩ | ⟨timeout, t0, n, b, rest, ho, _, _, _, rfl⟩⟩ := step_next h
  · exact .inr (.inl ⟨hp, rfl⟩)
  · rw [hmove] at hm
    exact .inr (.inr ⟨hidle, hm ▸ hturn h'⟩)
  · rw [hmove] at hm
    exact .inr (.inr ⟨hidle, hm ▸ (hturn h').trans (exec_cmd_appends hi he)⟩)
  · exact .inl (hbegun.trans (pumpSink_appends _))
  · have hop : s.beginTurn.op = .receiving timeout t0 := by rw [State.beginTurn_op, ho]
    exact .inl (hbegun.trans ((clockTest_pollLoop_outcome 0 hop).appends (clockTest_outside _)))
  · have hop : s.beginTurn.op = .receiving timeout t0 := by rw [State.beginTurn_op, ho]
    have hbyte : BlockAppends s.beginTurn (parserStep b { s.beginTurn with source := rest }) :=
      .of_outside (parserStep_outside b _) ((parserStep_results b _).symm ▸ List.prefix_rfl)
    have hop' : (parserStep b { s.beginTurn with source := rest }).op = .receiving timeout t0 := (parserStep_op b _).trans hop
    exact .inl ((hbegun.trans hbyte).trans ((afterByte_outcome n hop').appends (afterByte_outside _ _)))

/-! ### The HOST's moves, by what they do to its counters and its returns (R150, R155) -/

/-- Everything a move can do to the counters and the returns: leave the counters, end `send_data`, deliver a message, or start a
session. -/
inductive CountersMoved (c : Config) (h h' : HostState) : Prop where
  | kept (hd : h'.lastDelivered = h.lastDelivered) (ha : h'.lastAcknowledged = h.lastAcknowledged)
      (hr : h.returns <+: h'.returns)
  | delivered (q : Word32) (seg : Bytes) (hphase : h.phase = .sendDecoding q seg) (hd : h'.lastDelivered = q)
      (ha : h'.lastAcknowledged = h.lastAcknowledged) (hr : h'.returns = h.returns ++ [.sent])
  | received (number : Word32) (data : Bytes) (dataLen : Nat) (r : Receiver)
      (hphase : h.phase = .ackSending (.deliver number data dataLen r)) (hd : h'.lastDelivered = h.lastDelivered)
      (ha : h'.lastAcknowledged = number) (hr : h'.returns = h.returns ++ [deliveryReturn c data dataLen r])
  | session (later : List HostCall) (hphase : h.phase = .idle)
      (hcalls : h.calls = .resetCounters :: later ∨ h.calls = .newSession :: later) (hd : h'.lastDelivered = 0xFFFFFFFF)
      (ha : h'.lastAcknowledged = 0xFFFFFFFF) (hr : h'.returns = h.returns)

section
variable {c : Config} {h : HostState}

/-- A move that changes the phase alone. -/
theorem CountersMoved.phase (p : HostPhase) : CountersMoved c h { h with phase := p } := .kept rfl rfl List.prefix_rfl

theorem startCall_counters {call : HostCall} {later : List HostCall} (hphase : h.phase = .idle) (hcalls : h.calls = call :: later) :
    CountersMoved c h (startCall c call { h with calls := later }).host := by
  cases call with
  | resetCounters => exact .session later hphase (.inl hcalls) rfl rfl rfl
  | newSession => exact .session later hphase (.inr hcalls) rfl rfl rfl
  | cmd r => exact .kept rfl rfl List.prefix_rfl
  | sendAck number => exact .kept rfl rfl List.prefix_rfl
  | sendData bytes ackField => exact .kept rfl rfl List.prefix_rfl
  | receiveData maxBytes => exact .kept rfl rfl List.prefix_rfl
  | sendString text ackField => exact .kept rfl rfl List.prefix_rfl
  | receiveString => exact .kept rfl rfl List.prefix_rfl

theorem sortReply_counters {q : Word32} {seg : Bytes} (r : Segment) (hphase : h.phase = .sendDecoding q seg) :
    CountersMoved c h (sortReply q seg r h).host := by
  unfold sortReply
  split_ifs
  · exact .phase _
  · exact .delivered q seg hphase rfl rfl rfl
  · exact .phase _
  · exact .phase _

theorem sortIncoming_counters (r : Receiver) (g : Segment) : CountersMoved c h (sortIncoming r g h).host := by
  unfold sortIncoming
  split_ifs
  · exact .phase _
  · exact .phase _
  · exact .phase _
  · exact .phase _

theorem afterAck_counters {next : AfterAck} (hphase : h.phase = .ackSending next) : CountersMoved c h (afterAck c h next).host := by
  cases next with
  | finish => exact .kept rfl rfl (List.prefix_append _ _)
  | resend q seg => exact .phase _
  | awaitMore r => exact .phase _
  | deliver number data dataLen r => exact .received number data dataLen r hphase rfl rfl rfl

theorem hostMove_counters (last : Option Result) : CountersMoved c h (hostMove c last h).host := by
  have idle : CountersMoved c h h := .kept rfl rfl List.prefix_rfl
  unfold hostMove
  split
  · rename_i hphase
    split
    · exact idle
    · exact startCall_counters hphase ‹_›
  · exact .phase _
  · exact .phase _
  · split_ifs <;> exact .phase _
  · exact sortReply_counters _ ‹_›
  · split_ifs <;> exact .phase _
  · exact sortIncoming_counters _ _
  · exact .phase _
  · exact afterAck_counters ‹_›
  · exact idle

/-! ### The invariant of the counters is kept by every move (R150) -/

/-- The invariant of a HOST that is in no procedure. -/
theorem HostState.inv_of_idle (hphase : h.phase = .idle) : h.Inv := by
  rw [HostState.Inv, hphase]
  trivial

theorem startCall_inv {call : HostCall} (hphase : h.phase = .idle) : (startCall c call h).host.Inv := by
  cases call with
  | cmd r => exact HostState.inv_of_idle hphase
  | resetCounters => exact HostState.inv_of_idle hphase
  | newSession => exact HostState.inv_of_idle hphase
  | sendAck number => exact trivial
  | sendData bytes ackField => exact rfl
  | receiveData maxBytes => exact trivial
  | sendString text ackField => exact rfl
  | receiveString => exact trivial

theorem sortReply_inv {q : Word32} {seg : Bytes} (r : Segment) (hq : q = h.lastDelivered + 1) : (sortReply q seg r h).host.Inv := by
  unfold sortReply
  split_ifs
  · exact hq
  · exact HostState.inv_of_idle rfl
  · exact hq
  · exact hq

theorem sortIncoming_inv (r : Receiver) (g : Segment) : (sortIncoming r g h).host.Inv := by
  unfold sortIncoming
  split_ifs with hfailed hexpected
  · exact trivial
  · exact hexpected.2
  · exact trivial
  · exact trivial

theorem afterAck_inv {next : AfterAck} (hnext : next.Inv h) : (afterAck c h next).host.Inv := by
  cases next with
  | finish => exact HostState.inv_of_idle rfl
  | resend q seg => exact hnext
  | awaitMore r => exact trivial
  | deliver number data dataLen r => exact HostState.inv_of_idle rfl

theorem hostMove_inv (last : Option Result) (hinv : h.Inv) : (hostMove c last h).host.Inv := by
  have hphase_inv := hinv
  unfold HostState.Inv at hphase_inv
  unfold hostMove
  split <;> simp only [*] at hphase_inv
  · split
    · exact hinv
    · exact startCall_inv ‹_›
  · exact hphase_inv
  · exact hphase_inv
  · split_ifs <;> exact hphase_inv
  · exact sortReply_inv _ hphase_inv
  · split_ifs <;> exact trivial
  · exact sortIncoming_inv _ _
  · exact hphase_inv
  · exact afterAck_inv hphase_inv
  · exact hinv

end

/-- Every move of the HOST keeps what it has returned. -/
theorem hostMove_returns (c : Config) (last : Option Result) (h : HostState) : h.returns <+: (hostMove c last h).host.returns := by
  cases hostMove_counters (c := c) (h := h) last with
  | kept _ _ hr => exact hr
  | delivered q seg _ _ _ hr => rw [hr]; exact List.prefix_append _ _
  | received number data dataLen r _ _ _ hr => rw [hr]; exact List.prefix_append _ _
  | session later _ _ _ _ hr => rw [hr]

/-- Settles O52: the block only appends, a power-on takes nothing back, and neither does a move of the HOST. -/
theorem stepOnlyAppends : Obligations.StepOnlyAppends := by
  intro s t h
  rcases step_appends h with ⟨hcfg, hsink, hres, hhost⟩ | ⟨_, rfl⟩ | ⟨_, hcfg, hsink, hres, hhost⟩
  · exact ⟨hcfg, hsink, hres, hhost ▸ List.prefix_rfl⟩
  · simp
  · exact ⟨hcfg, hsink, hres, hhost ▸ hostMove_returns _ _ _⟩

/-- Settles O54: a power-on leaves the HOST in no procedure, and every move of the HOST keeps the invariant. -/
theorem stepKeepsCounterInvariant : Obligations.StepKeepsCounterInvariant := by
  intro s t hinv h
  rcases step_appends h with happends | ⟨_, rfl⟩ | ⟨_, happends⟩
  · rw [happends.host]; exact hinv
  · exact HostState.inv_of_idle rfl
  · rw [happends.host]; exact hostMove_inv _ hinv

/-- What a receiver returns is of one of the three kinds. -/
theorem deliveryReturn_kind (c : Config) (data : Bytes) (dataLen : Nat) (r : Receiver) :
    (∃ value buffer, deliveryReturn c data dataLen r = .received value buffer) ∨
    (∃ text, deliveryReturn c data dataLen r = .string text) ∨ deliveryReturn c data dataLen r = .stringTooLong := by
  cases r with
  | data maxBytes => exact .inl ⟨_, _, rfl⟩
  | string =>
    by_cases hlong : c.msgMax < dataLen
    · exact .inr (.inr (if_pos hlong))
    · exact .inr (.inl ⟨_, if_neg hlong⟩)

/-- Settles O55: each way to move a counter, with the invariant that gives the number the procedure worked on. -/
theorem countersAdvanceByOne : Obligations.CountersAdvanceByOne := by
  intro s t hinv h
  rcases step_appends h with happends | ⟨hp, rfl⟩ | ⟨hidle, happends⟩
  · exact ⟨.inl (by rw [happends.host]), .inl (by rw [happends.host])⟩
  · exact ⟨.inr (.inr ⟨.inl hp, rfl⟩), .inr (.inr ⟨.inl hp, rfl⟩)⟩
  · have hmoved := hostMove_counters (c := s.cfg) (h := s.host) s.results.getLast?
    have hhost : t.host = (hostMove s.cfg s.results.getLast? s.host).host := happends.host
    rw [← hhost] at hmoved
    cases hmoved with
    | kept hd ha _ => exact ⟨.inl hd, .inl ha⟩
    | delivered q seg hphase hd ha hr =>
      have hq : q = s.host.lastDelivered + 1 := by simpa only [HostState.Inv, hphase] using hinv
      exact ⟨.inr (.inl ⟨hd.trans hq, hr⟩), .inl ha⟩
    | received number data dataLen r hphase hd ha hr =>
      have hn : number = s.host.lastAcknowledged + 1 := by simpa only [HostState.Inv, AfterAck.Inv, hphase] using hinv
      exact ⟨.inl hd, .inr (.inl ⟨ha.trans hn, _, hr, deliveryReturn_kind s.cfg data dataLen r⟩)⟩
    | session later hphase hcalls hd ha _ =>
      have hstart : s.StartsSession := .inr ⟨hidle, hphase, later, hcalls⟩
      exact ⟨.inr (.inr ⟨hstart, hd⟩), .inr (.inr ⟨hstart, ha⟩)⟩

/-! ### Power-on, and the CMD the HOST presents -/

theorem step_powerOn {s : State} (h : s.beginTurn.turn.powersOn = true) : step s = .next s.beginTurn.powerOn := by
  rw [step, stepWithin, if_pos h]

/-- Settles O46: the step is the power-on, in the state in which the turn has begun. -/
theorem powerOnInterrupts : Obligations.PowerOnInterrupts := by
  intro s h
  refine ⟨_, step_powerOn h, rfl, rfl, rfl, rfl, rfl, rfl, State.beginTurn_source s, ?_⟩
  simp

/-- A HOST that stands in none of its procedures takes its next call. -/
theorem hostMove_idle {c : Config} {last : Option Result} {h : HostState} {call : HostCall} {later : List HostCall}
    (hphase : h.phase = .idle) (hcalls : h.calls = call :: later) :
    hostMove c last h = startCall c call { h with calls := later } := by
  simp only [hostMove, hphase, hcalls]

/-- Settles O6: the HOST's move is to issue the CMD, and running it is executing what it decodes to. -/
theorem stepRunsCommand : Obligations.StepRunsCommand := by
  intro s r later i hidle hphase hcalls hdecode hpower
  rw [step_boundary hpower hidle, hostMove_idle hphase hcalls]
  exact runRaw_of_decode (s := { s.beginTurn with host := { s.host with calls := later } })
    ((State.beginTurn_cfg s).symm ▸ hdecode)

/-! ### The results of reserved codes and of all others (R142) -/

/-- The instruction of a reserved code. -/
def IsReservedInstr (i : Instr) : Prop := i = .reserved0 ∨ i = .reservedB ∨ ∃ low, i = .reservedCF low

/-- A code that is not reserved encodes no reserved instruction. -/
theorem not_isReservedInstr {code : BitVec 4} {args : List Arg} {i : Instr} (hcode : ¬ IsReservedCode code)
    (henc : encode i = cmd code args) : ¬ IsReservedInstr i := by
  rintro (rfl | rfl | ⟨low, rfl⟩)
  · cases henc; exact hcode (.inl rfl)
  · cases henc; exact hcode (.inr (by decide))
  · cases henc; exact hcode (.inr (Nat.le_of_succ_le (reservedCF_low low).1))

/-- The results of `t` are those of `s`, or these and one record that is not `illegal`. -/
def AnswersLegally (s t : State) : Prop := t.results = s.results ∨ ∃ r, r ≠ .illegal ∧ t.results = s.results ++ [r]

theorem AnswersLegally.ne_illegal {s t : State} (h : AnswersLegally s t) : t.results ≠ s.results ++ [.illegal] := by
  rcases h with e | ⟨r, hr, e⟩ <;> rw [e]
  · simp
  · simpa using hr

theorem RecvOutcome.answersLegally {timeout : Int} {t0 : Nat} {s t : State} (h : RecvOutcome timeout t0 s t) :
    AnswersLegally s t := by
  rcases h with ⟨_, hres⟩ | ⟨_, p, hres, _⟩
  · exact .inl hres
  · exact .inr ⟨.packet p, nofun, hres⟩

theorem pumpSink_answersLegally (s : State) : AnswersLegally s (pumpSink s) := by
  rcases pumpSink_cases s with e | ⟨rest, _, ⟨_, e⟩ | ⟨_, e⟩⟩ <;> rw [e]
  · exact .inl rfl
  · exact .inr ⟨.done, nofun, rfl⟩
  · exact .inl rfl

/-- Every defined operation answers with a record of its own kind, at once or later. -/
theorem exec_answersLegally {i : Instr} {c : RawCmd} {s t : State} (hi : encode i = .cmd c) (hdefined : ¬ IsReservedInstr i)
    (he : exec i s = .next t) : AnswersLegally s t := by
  have hidle : s.op = .idle := (exec_cmd_next hi he).1
  have responds {r : Result} (he : respondWith r s = .next t) (hr : r ≠ .illegal) : AnswersLegally s t := by
    obtain ⟨_, rfl⟩ := respondWith_next he
    exact .inr ⟨r, hr, rfl⟩
  cases i with
  | b64enc bytes => exact responds he nofun
  | b64dec text => exact responds he nofun
  | crc32 bytes => exact responds he nofun
  | crcCheck bytes => exact responds he nofun
  | segEnc isAck q k data => exact responds he nofun
  | status => exact responds he nofun
  | segDec bytes =>
    rw [exec, execSegDec, atBoundary_idle hidle] at he
    split at he <;> cases he
    · exact .inr ⟨.segment _, nofun, rfl⟩
    · exact .inr ⟨.segment _, nofun, rfl⟩
  | reset =>
    cases (exec_reset_idle hidle).symm.trans he
    exact .inr ⟨.done, nofun, rfl⟩
  | pktSend bytes =>
    rw [exec, execPktSend, atBoundary_idle hidle] at he
    cases he
    exact pumpSink_answersLegally { s with op := .sending (encodePacket s.cfg.b64 bytes) }
  | pktRecv timeout =>
    obtain ⟨_, _, rfl⟩ := exec_pktRecv_next he
    exact (clockTest_pollLoop_outcome (s := { s with op := .receiving timeout s.clock }) _ rfl).answersLegally
  | reserved0 => exact absurd (.inl rfl) hdefined
  | reservedB => exact absurd (.inr (.inl rfl)) hdefined
  | reservedCF low => exact absurd (.inr (.inr ⟨low, rfl⟩)) hdefined
  | rxStart => cases hi
  | rxEnd => cases hi
  | rxData b => cases hi

/-- Settles O10: a reserved code decodes to a reserved instruction, any other to a defined one. -/
theorem reservedCodesAnswerIllegal : Obligations.ReservedCodesAnswerIllegal := by
  intro s code args hidle
  refine ⟨fun hcode => ?_, fun hcode i hdecode => ?_⟩
  · obtain ⟨i, hdecode, _, _, hi⟩ := decode_reserved hcode
    refine ⟨i, hdecode s.cfg args, ?_⟩
    rcases hi with rfl | rfl | ⟨low, rfl⟩
    · exact reportIllegal_idle hidle
    · exact reportIllegal_idle hidle
    · exact reportIllegal_idle hidle
  · obtain ⟨_, henc⟩ := encode_of_decode_defined hcode hdecode
    have hdefined := not_isReservedInstr hcode henc
    exact ⟨fun e => hdefined (.inl e), fun e => hdefined (.inr (.inl e)), fun low e => hdefined (.inr (.inr ⟨low, e⟩)),
      fun t he => (exec_answersLegally henc hdefined he).ne_illegal⟩

/-! ### The BYTE SOURCE (R47, R56) -/

theorem pumpSink_source (s : State) : (pumpSink s).source = s.source := by
  rcases pumpSink_cases s with e | ⟨rest, _, ⟨_, e⟩ | ⟨_, e⟩⟩ <;> rw [e]

/-- A CMD's instruction takes no byte, or it is a PKT_RECV. -/
theorem exec_cmd_source {i : Instr} {c : RawCmd} {s t : State} (hi : encode i = .cmd c) (he : exec i s = .next t) :
    t.source = s.source ∨ ∃ k timeout, t.source = s.source.drop k ∧ RecvOutcome timeout s.clock s t := by
  obtain ⟨_, ⟨r, _, rfl⟩ | ⟨g, rfl⟩ | rfl | ⟨bytes, rfl⟩ | ⟨timeout, _, rfl⟩⟩ := exec_cmd_next hi he
  · exact .inl rfl
  · exact .inl rfl
  · exact .inl rfl
  · exact .inl (pumpSink_source _)
  · obtain ⟨k, hsource, _⟩ := pollLoop_source s.turn.polls { s with op := .receiving timeout s.clock }
    exact .inr ⟨k, timeout, (clockTest_source _).trans hsource,
      clockTest_pollLoop_outcome (s := { s with op := .receiving timeout s.clock }) _ rfl⟩

/-- Settles O53: only the polls of a PKT_RECV take bytes, and they drop them from the front. -/
theorem sourceInOrder : Obligations.SourceInOrder := by
  intro s t h
  rw [← State.beginTurn_source]
  obtain ⟨u, rfl, ⟨hp, rfl⟩ | ⟨hidle, h', hm, rfl⟩ | ⟨hidle, c, h', i, c', hm, _, hi, he⟩ | ⟨rest, _, rfl⟩ |
    ⟨timeout, t0, ho, _, rfl⟩ | ⟨timeout, t0, n, b, rest, ho, _, hsource, _, rfl⟩⟩ := step_next h
  · exact ⟨0, rfl, .inl rfl⟩
  · exact ⟨0, rfl, .inl rfl⟩
  · rcases exec_cmd_source hi he with hkept | ⟨k, timeout, hdrop, hrecv⟩
    · exact ⟨0, hkept, .inl rfl⟩
    · rcases hrecv with ⟨hrunning, _⟩ | ⟨_, p, hres, _⟩
      · exact ⟨k, hdrop, .inr (.inr (.inl ⟨_, _, hrunning⟩))⟩
      · exact ⟨k, hdrop, .inr (.inr (.inr ⟨p, hres.trans (by rw [State.beginTurn_results])⟩))⟩
  · exact ⟨0, pumpSink_source _, .inl rfl⟩
  · exact ⟨0, clockTest_source _, .inr (.inl ⟨timeout, t0, ho⟩)⟩
  · obtain ⟨k, hdrop, _⟩ := pollLoop_source n (settle (parserStep b { s.beginTurn with source := rest }))
    refine ⟨k + 1, ?_, .inr (.inl ⟨timeout, t0, ho⟩)⟩
    rw [afterByte, clockTest_source, hdrop, settle_source, parserStep_source, hsource, List.drop_succ_cons]

end Sys2Proof.Machine

namespace Sys2Proof.Machine

/-! ### PKT_SEND (R108) -/

/-- A turn in which the sink has room for all that is left ends the operation. -/
theorem pumpSink_all {s : State} {rest : Bytes} (ho : s.op = .sending rest) (hroom : rest.length ≤ s.sinkRoom) :
    pumpSink s = { s with
      op := .idle, sinkRoom := s.sinkRoom - rest.length, sink := s.sink ++ rest, results := s.results ++ [.done] } := by
  simp [pumpSink, ho, hroom, State.finish, State.respond, List.take_of_length_le hroom]

/-- A turn in which it has less hands over what it has room for, and the operation goes on. -/
theorem pumpSink_part {s : State} {rest : Bytes} (ho : s.op = .sending rest) (hroom : s.sinkRoom < rest.length) :
    pumpSink s = { s with
      op := .sending (rest.drop s.sinkRoom), sinkRoom := 0, sink := s.sink ++ rest.take s.sinkRoom } := by
  simp [pumpSink, ho, Nat.not_le.mpr hroom, Nat.sub_eq_zero_of_le hroom.le]

theorem exec_pktSend_idle {s : State} (h : s.op = .idle) (bytes : Bytes) :
    exec (.pktSend bytes) s = .next (pumpSink { s with op := .sending (encodePacket s.cfg.b64 bytes) }) := by
  rw [exec, execPktSend, atBoundary_idle h]

theorem encodePacket_eq (p : Base64Params) (bytes : Bytes) :
    encodePacket p bytes = [0x00] ++ b64Encode p bytes ++ [0x04] := rfl

theorem length_encodePacket (p : Base64Params) (bytes : Bytes) :
    (encodePacket p bytes).length = 2 + 4 * ((bytes.length + 2) / 3) := by
  simp only [encodePacket, List.length_cons, List.length_append, List.length_nil, length_b64Encode, b64Length]
  omega

/-- Settles O27: the packet is no longer than the sink's room. -/
theorem pktSendCompletes : Obligations.PktSendCompletes := by
  intro s bytes hidle hroom
  rw [← length_encodePacket s.cfg.b64] at hroom ⊢
  rw [exec_pktSend_idle hidle, pumpSink_all (s := { s with op := .sending (encodePacket s.cfg.b64 bytes) }) rfl hroom, hidle,
    encodePacket_eq]

/-- Settles O28: the packet is longer than the sink's room. -/
theorem pktSendWaitsForSink : Obligations.PktSendWaitsForSink := by
  intro s bytes hidle hroom
  rw [← length_encodePacket s.cfg.b64] at hroom
  rw [exec_pktSend_idle hidle, pumpSink_part (s := { s with op := .sending (encodePacket s.cfg.b64 bytes) }) rfl hroom,
    encodePacket_eq]

/-- A step of a running PKT_SEND is a turn of the sink. -/
theorem step_sending {s : State} {rest : Bytes} (ho : s.op = .sending rest) (hpower : s.beginTurn.turn.powersOn = false) :
    step s = .next (pumpSink s.beginTurn) := by
  rw [step_powered hpower, stepPowered, State.beginTurn_op, ho]

/-- A step of a running PKT_SEND whose turn the agenda names. -/
theorem step_sending_cons {s : State} {rest : Bytes} {t : Turn} {later : List Turn} (ho : s.op = .sending rest)
    (hagenda : s.agenda = t :: later) (hpower : t.powersOn = false) :
    step s = .next (pumpSink (({ s with agenda := later } : State).underTurn t)) := by
  have hturn := State.beginTurn_cons hagenda
  rw [step_sending ho (by rw [hturn]; exact hpower), hturn]

/-- Such a step with less room than bytes left: what fits is handed over, and all else but the turn's own part is as before. -/
theorem step_sending_part {s : State} {rest : Bytes} {t : Turn} {later : List Turn} (ho : s.op = .sending rest)
    (hagenda : s.agenda = t :: later) (hpower : t.powersOn = false) (hroom : s.sinkRoom + t.sinkRoom < rest.length) :
    ∃ u, step s = .next u ∧ u.op = .sending (rest.drop (s.sinkRoom + t.sinkRoom)) ∧ u.agenda = later ∧
      u.sink = s.sink ++ rest.take (s.sinkRoom + t.sinkRoom) ∧ u.results = s.results ∧ u.host = s.host ∧ u.pst = s.pst ∧
      u.idx = s.idx ∧ u.acc = s.acc := by
  have hop : (({ s with agenda := later } : State).underTurn t).op = .sending rest := ho
  refine ⟨_, (step_sending_cons ho hagenda hpower).trans (congrArg _ (pumpSink_part hop hroom)), ?_⟩
  simp

/-- Settles O29, by induction on the turns: each one either ends the operation or leaves at least one byte less. -/
theorem sendDrainsIntoSink : Obligations.SendDrainsIntoSink := by
  intro s rest turns later
  induction turns generalizing s rest with
  | nil =>
    intro _ hne _ _ hlen
    exact absurd (List.eq_nil_of_length_eq_zero (Nat.le_zero.mp hlen)) hne
  | cons turn turns ih =>
    intro ho hne hagenda hturns hlen
    obtain ⟨⟨hroom, hpower⟩, hturns⟩ := List.forall_mem_cons.mp hturns
    have hpos : 1 ≤ rest.length := List.length_pos_of_ne_nil hne
    by_cases hall : rest.length ≤ s.sinkRoom + turn.sinkRoom
    · have hop : (({ s with agenda := turns ++ later } : State).underTurn turn).op = .sending rest := ho
      have hstep := (step_sending_cons ho hagenda hpower).trans (congrArg _ (pumpSink_all hop hall))
      exact ⟨1, _, le_rfl, hpos, .cons hstep rfl, rfl, rfl, rfl, rfl, rfl, rfl, rfl⟩
    · obtain ⟨u, hstep, huop, huagenda, husink, hures, huhost, hupst, huidx, huacc⟩ :=
        step_sending_part ho hagenda hpower (Nat.lt_of_not_le hall)
      have hleft : (rest.drop (s.sinkRoom + turn.sinkRoom)).length = rest.length - (s.sinkRoom + turn.sinkRoom) :=
        List.length_drop
      rw [List.length_cons] at hlen
      obtain ⟨n, t, _, hn, hreach, hidle, hsink, hres, hhost, hpst, hidx, hacc⟩ :=
        ih u _ huop (List.ne_nil_of_length_pos (by omega)) huagenda hturns (by omega)
      refine ⟨n + 1, t, by omega, by omega, .cons hstep hreach, hidle, ?_, hures ▸ hres, hhost.trans huhost, hpst.trans hupst,
        hidx.trans huidx, hacc.trans huacc⟩
      rw [hsink, husink, List.append_assoc, List.take_append_drop]

/-- A sink without room leaves a running PKT_SEND as it is. -/
theorem pumpSink_deaf {s : State} {rest : Bytes} (ho : s.op = .sending rest) (hne : rest ≠ []) (hroom : s.sinkRoom = 0) :
    pumpSink s = s := by
  rw [pumpSink_part ho (hroom ▸ List.length_pos_of_ne_nil hne), hroom, List.drop_zero, List.take_zero, List.append_nil, ← ho,
    ← hroom]

/-- Settles O30, by induction on the turns: each one leaves the operation as it is. -/
theorem sendHangsOnDeafSink : Obligations.SendHangsOnDeafSink := by
  intro s rest turns later
  induction turns generalizing s with
  | nil => exact fun ho _ _ _ _ => ⟨s, rfl, ho, rfl, rfl, rfl⟩
  | cons turn turns ih =>
    intro ho hne hfull hagenda hturns
    obtain ⟨⟨hnone, hpower⟩, hturns⟩ := List.forall_mem_cons.mp hturns
    have hop : (({ s with agenda := turns ++ later } : State).underTurn turn).op = .sending rest := ho
    have hroom : (({ s with agenda := turns ++ later } : State).underTurn turn).sinkRoom = 0 := by
      rw [State.underTurn_sinkRoom, hnone, Nat.add_zero, hfull]
    have hstep := (step_sending_cons ho hagenda hpower).trans (congrArg _ (pumpSink_deaf hop hne hroom))
    obtain ⟨t, hreach, htop, hsink, hres, hhost⟩ := ih _ hop hne hroom rfl hturns
    exact ⟨t, .cons hstep hreach, htop, hsink, hres, hhost⟩

/-! ### The HOST's procedures, move by move (R151 to R156) -/

/-- The step in which the HOST issues a CMD. -/
theorem step_issue {s : State} {c : Raw} {g : HostState} (hidle : s.op = .idle) (hpower : s.beginTurn.turn.powersOn = false)
    (h : hostMove s.cfg s.results.getLast? s.host = .issue c g) : step s = runRaw c { s.beginTurn with host := g } := by
  rw [step_boundary hpower hidle, h]

/-- The step in which it issues none. -/
theorem step_stay {s : State} {g : HostState} (hidle : s.op = .idle) (hpower : s.beginTurn.turn.powersOn = false)
    (h : hostMove s.cfg s.results.getLast? s.host = .stay g) : step s = .next { s.beginTurn with host := g } := by
  rw [step_boundary hpower hidle, h]

section
variable {c : Config} {h : HostState} {last : Option Result} {q : Word32} {seg : Bytes} {r : Receiver}

theorem hostMove_sendEncoding (hp : h.phase = .sendEncoding q) :
    hostMove c (some (.bytes seg)) h = transmit q seg h := by
  simp only [hostMove, hp]

theorem hostMove_sendSending (hp : h.phase = .sendSending q seg) :
    hostMove c last h = .issue (encode (.pktRecv c.ackTimeoutMs)) { h with phase := .sendWaiting q seg } := by
  simp only [hostMove, hp]

theorem hostMove_sendWaiting (hp : h.phase = .sendWaiting q seg) (p : Packet) : hostMove c (some (.packet p)) h =
    if p.timedOut = true ∨ p.wellFormed = false then transmit q seg h
    else .issue (encode (.segDec p.payload)) { h with phase := .sendDecoding q seg } := by
  simp only [hostMove, hp]

theorem hostMove_sendDecoding (hp : h.phase = .sendDecoding q seg) (g : Segment) :
    hostMove c (some (.segment g)) h = sortReply q seg g h := by
  simp only [hostMove, hp]

theorem hostMove_recvWaiting (hp : h.phase = .recvWaiting r) (p : Packet) : hostMove c (some (.packet p)) h =
    if p.timedOut = true ∨ p.wellFormed = false then awaitPacket r h
    else .issue (encode (.segDec p.payload)) { h with phase := .recvDecoding r } := by
  simp only [hostMove, hp]

theorem hostMove_recvDecoding (hp : h.phase = .recvDecoding r) (g : Segment) :
    hostMove c (some (.segment g)) h = sortIncoming r g h := by
  simp only [hostMove, hp]

theorem hostMove_ackEncoding {next : AfterAck} (hp : h.phase = .ackEncoding next) :
    hostMove c (some (.bytes seg)) h = .issue (encode (.pktSend seg)) { h with phase := .ackSending next } := by
  simp only [hostMove, hp]

theorem hostMove_ackSending {next : AfterAck} (hp : h.phase = .ackSending next) : hostMove c last h = afterAck c h next := by
  simp only [hostMove, hp]

end

/-- Settles O56: each clause is one move of the HOST, and the rows of R152 are the branches of `sortReply`. -/
theorem sendDataSortsReplies : Obligations.SendDataSortsReplies := by
  intro s q seg hidle hpower
  refine ⟨?encoded, ?sent, ?waited, ?decoded, ?acknowledged⟩
  case encoded => exact fun hp hlast => step_issue hidle hpower (by rw [hlast, hostMove_sendEncoding hp, transmit])
  case sent => exact fun hp => step_issue hidle hpower (hostMove_sendSending hp)
  case waited =>
    intro p hp hlast
    refine ⟨fun hbad => step_issue hidle hpower ?_, fun hintime hwf => step_issue hidle hpower ?_⟩
    · rw [hlast, hostMove_sendWaiting hp, if_pos hbad, transmit]
    · rw [hlast, hostMove_sendWaiting hp, if_neg (by simp [hintime, hwf])]
  case decoded =>
    intro r hp hlast
    refine ⟨fun hfailed => step_issue hidle hpower ?_, fun hvalid hack hnumber => step_stay hidle hpower ?_,
      fun hvalid hdata hnumber => step_issue hidle hpower ?_, fun hvalid hack hdata => step_issue hidle hpower ?_⟩
    · rw [hlast, hostMove_sendDecoding hp, sortReply, if_pos hfailed, transmit]
    · rw [hlast, hostMove_sendDecoding hp, sortReply, if_neg (by simp [hvalid]), if_pos ⟨hack, hnumber⟩]
      rfl
    · rw [hlast, hostMove_sendDecoding hp, sortReply, if_neg (by simp [hvalid]), if_neg (by simp [hdata]),
        if_pos ⟨hdata, hnumber⟩, beginAck]
    · rw [hlast, hostMove_sendDecoding hp, sortReply, if_neg (by simp [hvalid]), if_neg fun h => hack h.1 h.2,
        if_neg fun h => hdata h.1 h.2, transmit]
  case acknowledged => exact fun hp => step_issue hidle hpower (by rw [hostMove_ackSending hp, afterAck, transmit])

/-- Settles O57: each clause is one move of the HOST, and the segments of R153 are the branches of `sortIncoming`. -/
theorem receiveDataSortsSegments : Obligations.ReceiveDataSortsSegments := by
  intro s r hidle hpower
  refine ⟨?waited, ?decoded, ?encoded, ?acknowledged⟩
  case waited =>
    intro p hp hlast
    refine ⟨fun hbad => step_issue hidle hpower ?_, fun hintime hwf => step_issue hidle hpower ?_⟩
    · rw [hlast, hostMove_recvWaiting hp, if_pos hbad, awaitPacket, waitForever]
    · rw [hlast, hostMove_recvWaiting hp, if_neg (by simp [hintime, hwf])]
  case decoded =>
    intro g hp hlast
    refine ⟨fun hvalid hdata hnumber => step_issue hidle hpower ?_, fun hvalid hdata hnumber => step_issue hidle hpower ?_,
      fun hother => step_issue hidle hpower ?_⟩
    · rw [hlast, hostMove_recvDecoding hp, sortIncoming, if_neg (by simp [hvalid]), if_pos ⟨hdata, hnumber⟩, beginAck]
    · rw [hlast, hostMove_recvDecoding hp, sortIncoming, if_neg (by simp [hvalid]),
        if_neg (by simp [hnumber]), if_pos ⟨hdata, hnumber⟩, beginAck]
    · rw [hlast, hostMove_recvDecoding hp, sortIncoming]
      by_cases hvalid : g.checksumValid = true
      · rw [if_neg (by simp [hvalid]), if_neg fun h => (hother hvalid h.1).1 h.2, if_neg fun h => (hother hvalid h.1).2 h.2,
          awaitPacket, waitForever]
      · rw [if_pos (by simpa using hvalid), awaitPacket, waitForever]
  case encoded => exact fun next seg hp hlast => step_issue hidle hpower (by rw [hlast, hostMove_ackEncoding hp])
  case acknowledged => exact fun hp => step_issue hidle hpower (by rw [hostMove_ackSending hp, afterAck, awaitPacket, waitForever])

/-- A message within the buffer is returned whole, a longer one cut (R153, R156). -/
theorem deliveryReturn_eq (c : Config) (data : Bytes) (r : Receiver) : deliveryReturn c data data.length r = match r with
    | .data maxBytes =>
      if data.length ≤ maxBytes then .received data.length data else .received c.overflowSentinel (data.take maxBytes)
    | .string => if data.length ≤ c.msgMax then .string data else .stringTooLong := by
  cases r with
  | data maxBytes =>
    by_cases h : data.length ≤ maxBytes
    · simp [deliveryReturn, Receiver.capacity, h, Nat.not_lt.mpr h]
    · simp [deliveryReturn, Receiver.capacity, h, Nat.lt_of_not_le h, (Nat.lt_of_not_le h).le]
  | string =>
    by_cases h : data.length ≤ c.msgMax
    · simp [deliveryReturn, Receiver.capacity, h, Nat.not_lt.mpr h]
    · simp [deliveryReturn, h, Nat.lt_of_not_le h]

/-- Settles O58: after the acknowledgement the HOST returns what `deliveryReturn` says. -/
theorem deliveryReturns : Obligations.DeliveryReturns := by
  intro s number data r hidle hpower hp
  rw [step_stay hidle hpower (by rw [hostMove_ackSending hp, afterAck]), deliveryReturn_eq]
  rfl

/-- Settles O59: the HOST takes its call, and each call's move is the one `startCall` names. -/
theorem proceduresBegin : Obligations.ProceduresBegin := by
  intro s call later hidle hpower hphase hcalls
  have hmove := hostMove_idle (c := s.cfg) (last := s.results.getLast?) hphase hcalls
  cases call with
  | cmd c => exact step_issue hidle hpower hmove
  | sendAck number => exact step_issue hidle hpower hmove
  | resetCounters => exact step_stay hidle hpower hmove
  | newSession =>
    have hop : ({ s.beginTurn with host := ({ s.host with calls := later } : HostState).clearCounters } : State).op = .idle := by
      rw [← hidle]
      exact State.beginTurn_op s
    rw [step_issue hidle hpower hmove, runRaw_of_decode (decodeOfEncode _ .reset rfl), exec_reset_idle hop]
    simp [State.respond, State.clearParser, HostState.clearCounters, HostState.reset]
  | sendData bytes ackField => exact step_issue hidle hpower hmove
  | receiveData maxBytes => exact step_issue hidle hpower hmove
  | sendString text ackField => exact step_issue hidle hpower hmove
  | receiveString => exact step_issue hidle hpower hmove

/-! ### send_ack from call to return (R154) -/

/-- A shorter length is within LEN_MAX too (R42). -/
theorem Config.fits_mono {c : Config} {m n : Nat} (h : m ≤ n) (hn : c.fits n = true) : c.fits m = true := by
  unfold Config.fits at hn ⊢
  split at hn
  · rfl
  · simp_all
    omega

/-- The build and the parser value are the same. -/
structure ParserKept (s t : State) : Prop where
  cfg : t.cfg = s.cfg
  pst : t.pst = s.pst
  idx : t.idx = s.idx
  acc : t.acc = s.acc

theorem ParserKept.trans {s t u : State} (h : ParserKept s t) (h' : ParserKept t u) : ParserKept s u :=
  ⟨h'.cfg.trans h.cfg, h'.pst.trans h.pst, h'.idx.trans h.idx, h'.acc.trans h.acc⟩

theorem length_encodeSegment (c : Config) (isAck : Bool) (q k : Word32) (data : Bytes) :
    (encodeSegment c isAck q k data).length = 13 + data.length := by
  rw [encodeSegment, length_withTrailer, length_segmentHead]
  omega

section
variable {s : State} {t : Turn} {later : List Turn}

/-- The step in which the HOST issues a well-formed instruction's CMD, where the agenda names the turn. -/
theorem step_issue_cons {i : Instr} {g : HostState} (hidle : s.op = .idle) (hagenda : s.agenda = t :: later)
    (hpower : t.powersOn = false) (h : hostMove s.cfg s.results.getLast? s.host = .issue (encode i) g) (hwf : i.wf s.cfg = true) :
    step s = exec i { (({ s with agenda := later } : State).underTurn t) with host := g } := by
  have hturn := State.beginTurn_cons hagenda
  rw [step_issue hidle (by rw [hturn]; exact hpower) h, hturn]
  exact runRaw_of_decode (decodeOfEncode _ i hwf)

theorem step_issue_segEnc {isAck : Bool} {q k : Word32} {data : Bytes} {g : HostState} (hidle : s.op = .idle)
    (hagenda : s.agenda = t :: later) (hpower : t.powersOn = false)
    (h : hostMove s.cfg s.results.getLast? s.host = .issue (encode (.segEnc isAck q k data)) g)
    (hwf : (Instr.segEnc isAck q k data).wf s.cfg = true) :
    ∃ u, step s = .next u ∧ ParserKept s u ∧ u.op = .idle ∧ u.agenda = later ∧ u.host = g ∧
      u.results.getLast? = some (.bytes (encodeSegment s.cfg isAck q k data)) ∧ u.sinkRoom = s.sinkRoom + t.sinkRoom ∧
      u.sink = s.sink := by
  have hop : ({ (({ s with agenda := later } : State).underTurn t) with host := g } : State).op = .idle := hidle
  exact ⟨_, (step_issue_cons hidle hagenda hpower h hwf).trans (exec_segEnc_idle hop isAck q k data), ⟨rfl, rfl, rfl, rfl⟩, hidle,
    rfl, rfl, by simp, rfl, rfl⟩

theorem step_issue_pktSend {bytes : Bytes} {g : HostState} (hidle : s.op = .idle)
    (hagenda : s.agenda = t :: later) (hpower : t.powersOn = false)
    (h : hostMove s.cfg s.results.getLast? s.host = .issue (encode (.pktSend bytes)) g)
    (hwf : (Instr.pktSend bytes).wf s.cfg = true) (hroom : 2 + 4 * ((bytes.length + 2) / 3) ≤ s.sinkRoom + t.sinkRoom) :
    ∃ u, step s = .next u ∧ ParserKept s u ∧ u.op = .idle ∧ u.agenda = later ∧ u.host = g ∧
      u.sink = s.sink ++ encodePacket s.cfg.b64 bytes :=
  ⟨_, (step_issue_cons hidle hagenda hpower h hwf).trans (pktSendCompletes _ bytes hidle hroom), ⟨rfl, rfl, rfl, rfl⟩, hidle, rfl,
    rfl, rfl⟩

theorem step_stay_cons {g : HostState} (hidle : s.op = .idle) (hagenda : s.agenda = t :: later) (hpower : t.powersOn = false)
    (h : hostMove s.cfg s.results.getLast? s.host = .stay g) :
    ∃ u, step s = .next u ∧ ParserKept s u ∧ u.op = .idle ∧ u.host = g ∧ u.sink = s.sink := by
  have hturn := State.beginTurn_cons hagenda
  have hstep := step_stay hidle (by rw [hturn]; exact hpower) h
  rw [hturn] at hstep
  exact ⟨_, hstep, ⟨rfl, rfl, rfl, rfl⟩, hidle, rfl, rfl⟩

end

/-- Settles O60: SEG_ENC, PKT_SEND of its 13 bytes as 22 on the wire, and the return. -/
theorem sendAckReachesWire : Obligations.SendAckReachesWire := by
  intro s number calls t1 t2 t3 later hidle hfits hphase hcalls hagenda hpower1 hpower2 hpower3 hroom
  have hlen : (encodeSegment s.cfg true s.host.lastDelivered number []).length = 13 := length_encodeSegment ..
  obtain ⟨u1, hstep1, hkept1, hidle1, hagenda1, hhost1, hlast1, hroom1, hsink1⟩ :=
    step_issue_segEnc hidle hagenda hpower1 (hostMove_idle hphase hcalls) <| Bool.and_eq_true_iff.mpr
      ⟨Config.fits_mono (Nat.zero_le _) hfits, Config.fits_mono (by decide) hfits⟩
  obtain ⟨u2, hstep2, hkept2, hidle2, hagenda2, hhost2, hsink2⟩ :=
    step_issue_pktSend hidle1 hagenda1 hpower2 (by rw [hlast1, hhost1, hostMove_ackEncoding rfl]) (by
      rw [Instr.wf, hlen, hkept1.cfg, Bool.and_eq_true_iff]
      exact ⟨Config.fits_mono (by decide) hfits, hfits⟩) (by rw [hlen, hroom1]; exact hroom)
  obtain ⟨u3, hstep3, hkept3, hidle3, hhost3, hsink3⟩ :=
    step_stay_cons hidle2 hagenda2 hpower3 (by rw [hhost2, hostMove_ackSending rfl, afterAck])
  have hkept := (hkept1.trans hkept2).trans hkept3
  refine ⟨u3, .cons hstep1 (.cons hstep2 (.cons hstep3 rfl)), hidle3, ?_, ?_, ?_, hkept.pst, hkept.idx, hkept.acc⟩
  · rw [hsink3, hsink2, hsink1, hkept1.cfg]
  · rw [length_encodePacket, hlen]
  · rw [hhost3, HostState.returning, ← hphase]

end Sys2Proof.Machine

namespace Sys2Proof.Machine

/-! ### Groups and tails by arithmetic (R68, R70) -/

/-- The field of width `n` cut out at bit `k` is the value divided by `2 ^ k`, modulo `2 ^ n`. -/
theorem extractLsb'_eq_ofNat_div {w : Nat} (x : BitVec w) (k n : Nat) : x.extractLsb' k n = BitVec.ofNat n (x.toNat / 2 ^ k) := by
  rw [← Nat.shiftRight_eq_div_pow]
  rfl

/-- A six-bit number takes its value modulo 64. -/
theorem sixOfNat_congr {m n : Nat} (h : m % 64 = n % 64) : BitVec.ofNat 6 m = BitVec.ofNat 6 n :=
  BitVec.eq_of_toNat_eq (by simpa using h)

/-- The value of a field cut out of a word. -/
theorem toNat_extractLsb'_eq_div {w : Nat} (x : BitVec w) (k n : Nat) : (x.extractLsb' k n).toNat = x.toNat / 2 ^ k % 2 ^ n := by
  rw [extractLsb'_eq_ofNat_div, BitVec.toNat_ofNat]

theorem encodeGroup3_eq (p : Base64Params) (b0 b1 b2 : Byte) {g : Nat} (hg : g = 65536 * b0.toNat + 256 * b1.toNat + b2.toNat) :
    encodeGroup3 p b0 b1 b2 = [enc6 p (BitVec.ofNat 6 (g / 262144)), enc6 p (BitVec.ofNat 6 (g / 4096 % 64)),
      enc6 p (BitVec.ofNat 6 (g / 64 % 64)), enc6 p (BitVec.ofNat 6 (g % 64))] := by
  have hval : (b0 ++ b1 ++ b2 : BitVec 24).toNat = g := by
    rw [toNat_append_eq_add, toNat_append_eq_add]
    omega
  simp only [encodeGroup3, extractLsb'_eq_ofNat_div, hval]
  rw [sixOfNat_congr (m := g / 2 ^ 12) (n := g / 4096 % 64) (by omega),
    sixOfNat_congr (m := g / 2 ^ 6) (n := g / 64 % 64) (by omega), sixOfNat_congr (m := g / 2 ^ 0) (n := g % 64) (by omega)]
  rfl

/-- A tail's first character takes the six high bits of its first byte (R70). -/
theorem firstSix_eq (b : Byte) : b.extractLsb' 2 6 = BitVec.ofNat 6 (b.toNat / 4) := extractLsb'_eq_ofNat_div b 2 6

/-- The second character of a two-byte tail takes the two bits left over and the four high bits of the next byte (R70). -/
theorem middleSix_eq (b0 b1 : Byte) :
    b0.extractLsb' 0 2 ++ b1.extractLsb' 4 4 = BitVec.ofNat 6 (b0.toNat % 4 * 16 + b1.toNat / 16) := by
  refine BitVec.eq_of_toNat_eq ?_
  rw [toNat_append_eq_add, toNat_extractLsb'_eq_div, toNat_extractLsb'_eq_div, BitVec.toNat_ofNat]
  have := b1.isLt
  omega

theorem encodeTail2_eq (p : Base64Params) (b0 b1 : Byte) : encodeTail2 p b0 b1 =
    [enc6 p (BitVec.ofNat 6 (b0.toNat / 4)), enc6 p (BitVec.ofNat 6 (b0.toNat % 4 * 16 + b1.toNat / 16)),
      enc6 p (BitVec.ofNat 6 (b1.toNat % 16 * 4)), p.pad] := by
  have hlast : b1.extractLsb' 0 4 ++ 0#2 = BitVec.ofNat 6 (b1.toNat % 16 * 4) := by
    refine BitVec.eq_of_toNat_eq ?_
    rw [toNat_append_eq_add, toNat_extractLsb'_eq_div, BitVec.toNat_ofNat, BitVec.toNat_ofNat]
    omega
  rw [encodeTail2, firstSix_eq, middleSix_eq, hlast]

theorem encodeTail1_eq (p : Base64Params) (b0 : Byte) : encodeTail1 p b0 =
    [enc6 p (BitVec.ofNat 6 (b0.toNat / 4)), enc6 p (BitVec.ofNat 6 (b0.toNat % 4 * 16)), p.pad, p.pad] := by
  have hlast : b0.extractLsb' 0 2 ++ 0#4 = BitVec.ofNat 6 (b0.toNat % 4 * 16) := by
    refine BitVec.eq_of_toNat_eq ?_
    rw [toNat_append_eq_add, toNat_extractLsb'_eq_div, BitVec.toNat_ofNat, BitVec.toNat_ofNat]
    omega
  rw [encodeTail1, firstSix_eq, hlast]

/-- Texts of whole groups join (R91). -/
theorem b64Encode_append (p : Base64Params) {y : Bytes} : ∀ {x : Bytes}, x.length % 3 = 0 →
    b64Encode p (x ++ y) = b64Encode p x ++ b64Encode p y
  | [], _ => rfl
  | [_], h => by simp at h
  | [_, _], h => by simp at h
  | b0 :: b1 :: b2 :: rest, h => by
    have hrest : rest.length % 3 = 0 := by
      simp only [List.length_cons] at h
      omega
    simp only [List.cons_append, b64Encode, b64Encode_append p hrest, List.append_assoc]

theorem exec_b64enc_idle {s : State} (h : s.op = .idle) (bytes : Bytes) :
    exec (.b64enc bytes) s = .next (s.respond (.text (b64Encode s.cfg.b64 bytes))) := respondWith_idle h _

theorem exec_b64dec_idle {s : State} (h : s.op = .idle) (text : Bytes) :
    exec (.b64dec text) s = .next (s.respond (.bytes (b64Decode s.cfg.b64 text))) := respondWith_idle h _

/-- Settles O13: the bits of a group and of a tail are digits of the value the bytes spell. -/
theorem b64encGroups : Obligations.B64encGroups := by
  intro s hidle
  refine ⟨fun b0 b1 b2 g hg => ?group, fun b0 b1 => ?tail2, fun b0 => ?tail1, fun x y hx => ?join⟩
  case group => rw [exec_b64enc_idle hidle, b64Encode, b64Encode, List.append_nil, encodeGroup3_eq _ b0 b1 b2 hg]; rfl
  case tail2 => rw [exec_b64enc_idle hidle, b64Encode, encodeTail2_eq]; rfl
  case tail1 => rw [exec_b64enc_idle hidle, b64Encode, encodeTail1_eq]; rfl
  case join => rw [exec_b64enc_idle hidle, b64Encode_append _ hx]; rfl

/-- Settles O12: the table of R69 spelled out, and the lemma that `dec6` inverts `enc6` in a legal build. -/
theorem base64Alphabet : Obligations.Base64Alphabet := by
  refine ⟨?_, rfl, fun c hwf => dec6_eq_some_iff (Config.b64_wf hwf)⟩
  decide +kernel

/-- Settles O17: the result is `b64Decode` of the build's code and the text, and its bound holds of every text. -/
theorem b64decFitsBound : Obligations.B64decFitsBound := by
  intro p text
  refine ⟨b64Decode p text, length_b64Decode_le p text, ?_⟩
  rintro s rfl hidle
  exact exec_b64dec_idle hidle text

/-! ### A group of text and the bytes it stands for -/

/-- The bytes on the left stand as the group of four characters on the right: their bits in a row are the same, the two or four
padding bits of a tail being 0 (R68, R70, R93, R94). -/
inductive GroupText (p : Base64Params) : Bytes → Byte → Byte → Byte → Byte → Prop
  | full {b0 b1 b2 : Byte} {v0 v1 v2 v3 : BitVec 6}
      (h : 65536 * b0.toNat + 256 * b1.toNat + b2.toNat = 262144 * v0.toNat + 4096 * v1.toNat + 64 * v2.toNat + v3.toNat) :
      GroupText p [b0, b1, b2] (enc6 p v0) (enc6 p v1) (enc6 p v2) (enc6 p v3)
  | two {b0 b1 : Byte} {v0 v1 v2 : BitVec 6}
      (h : 4 * (256 * b0.toNat + b1.toNat) = 4096 * v0.toNat + 64 * v1.toNat + v2.toNat) :
      GroupText p [b0, b1] (enc6 p v0) (enc6 p v1) (enc6 p v2) p.pad
  | one {b0 : Byte} {v0 v1 : BitVec 6} (h : 16 * b0.toNat = 64 * v0.toNat + v1.toNat) :
      GroupText p [b0] (enc6 p v0) (enc6 p v1) p.pad p.pad

/-- A six-bit number is known by its value. -/
theorem ofNat_eq_of_toNat {n : Nat} {v : BitVec 6} (h : n = v.toNat) : BitVec.ofNat 6 n = v := by
  rw [h, BitVec.ofNat_toNat, BitVec.setWidth_eq]

/-- B64ENC writes the bytes of a group as its text. -/
theorem GroupText.encode {p : Base64Params} {out : Bytes} {c0 c1 c2 c3 : Byte} (h : GroupText p out c0 c1 c2 c3) :
    b64Encode p out = [c0, c1, c2, c3] := by
  cases h with
  | @full b0 b1 b2 v0 v1 v2 v3 h =>
    have h1 := v1.isLt
    have h2 := v2.isLt
    have h3 := v3.isLt
    rw [b64Encode, b64Encode, List.append_nil, encodeGroup3_eq p b0 b1 b2 rfl, h, ofNat_eq_of_toNat (v := v0) (by omega),
      ofNat_eq_of_toNat (v := v1) (by omega), ofNat_eq_of_toNat (v := v2) (by omega), ofNat_eq_of_toNat (v := v3) (by omega)]
  | @two b0 b1 v0 v1 v2 h =>
    have hb := b1.isLt
    have h1 := v1.isLt
    have h2 := v2.isLt
    rw [b64Encode, encodeTail2_eq, ofNat_eq_of_toNat (v := v0) (by omega), ofNat_eq_of_toNat (v := v1) (by omega),
      ofNat_eq_of_toNat (v := v2) (by omega)]
  | @one b0 v0 v1 h =>
    have h1 := v1.isLt
    rw [b64Encode, encodeTail1_eq, ofNat_eq_of_toNat (v := v0) (by omega), ofNat_eq_of_toNat (v := v1) (by omega)]

/-- One to three bytes have a group of text. -/
theorem GroupText.exists_of_bytes (p : Base64Params) (out : Bytes) (hlen : 1 ≤ out.length ∧ out.length ≤ 3) :
    ∃ c0 c1 c2 c3, GroupText p out c0 c1 c2 c3 := by
  match out, hlen with
  | [b0], _ =>
    have := b0.isLt
    exact ⟨_, _, _, _, .one (v0 := .ofNat 6 (b0.toNat / 4)) (v1 := .ofNat 6 (b0.toNat % 4 * 16)) (by
      simp only [BitVec.toNat_ofNat]; omega)⟩
  | [b0, b1], _ =>
    have := b0.isLt
    have := b1.isLt
    exact ⟨_, _, _, _, .two (v0 := .ofNat 6 (b0.toNat / 4)) (v1 := .ofNat 6 (b0.toNat % 4 * 16 + b1.toNat / 16))
      (v2 := .ofNat 6 (b1.toNat % 16 * 4)) (by simp only [BitVec.toNat_ofNat]; omega)⟩
  | [b0, b1, b2], _ =>
    have := b0.isLt
    have := b1.isLt
    have := b2.isLt
    exact ⟨_, _, _, _, .full (v0 := .ofNat 6 (b0.toNat / 4)) (v1 := .ofNat 6 (b0.toNat % 4 * 16 + b1.toNat / 16))
      (v2 := .ofNat 6 (b1.toNat % 16 * 4 + b2.toNat / 64)) (v3 := .ofNat 6 (b2.toNat % 64)) (by
        simp only [BitVec.toNat_ofNat]; omega)⟩

theorem decodeCanonical_cons4 {p : Base64Params} {c0 c1 c2 c3 : Byte} {rest front back : Bytes}
    (hfront : decodeGroup p rest.isEmpty c0 c1 c2 c3 = some front) (hback : decodeCanonical p rest = some back) :
    decodeCanonical p (c0 :: c1 :: c2 :: c3 :: rest) = some (front ++ back) := by
  rw [decodeCanonical, hfront, hback]

/-- The padding bits of a tail's last character are zero where its number is a multiple. -/
theorem extractLow_eq_zero_iff (v : BitVec 6) (n : Nat) : v.extractLsb' 0 n = 0#n ↔ v.toNat % 2 ^ n = 0 := by
  rw [← BitVec.toNat_inj, toNat_extractLsb'_eq_div]
  simp

section
variable {p : Base64Params} (hp : p.wf = true) {isLast : Bool}
include hp

theorem decodeGroup_full (v0 v1 v2 v3 : BitVec 6) : decodeGroup p isLast (enc6 p v0) (enc6 p v1) (enc6 p v2) (enc6 p v3) =
    some [(v0 ++ v1 ++ v2 ++ v3).extractLsb' 16 8, (v0 ++ v1 ++ v2 ++ v3).extractLsb' 8 8,
      (v0 ++ v1 ++ v2 ++ v3).extractLsb' 0 8] := by
  simp only [decodeGroup, dec6_enc6 hp, enc6_ne_pad hp, if_false]

theorem decodeGroup_two (v0 v1 v2 : BitVec 6) : decodeGroup p isLast (enc6 p v0) (enc6 p v1) (enc6 p v2) p.pad =
    if isLast = true ∧ v2.extractLsb' 0 2 = 0#2 then
      some [(v0 ++ v1 ++ v2).extractLsb' 10 8, (v0 ++ v1 ++ v2).extractLsb' 2 8] else none := by
  simp only [decodeGroup, dec6_enc6 hp, enc6_ne_pad hp, if_false, if_true]

theorem decodeGroup_one (v0 v1 : BitVec 6) : decodeGroup p isLast (enc6 p v0) (enc6 p v1) p.pad p.pad =
    if isLast = true ∧ v1.extractLsb' 0 4 = 0#4 then some [(v0 ++ v1).extractLsb' 4 8] else none := by
  simp only [decodeGroup, dec6_enc6 hp, if_true, true_and]

/-- Four characters of the alphabet decode to the three bytes with the same bits. -/
theorem decodeGroup_full_eq_some {v0 v1 v2 v3 : BitVec 6} {out : Bytes} :
    decodeGroup p isLast (enc6 p v0) (enc6 p v1) (enc6 p v2) (enc6 p v3) = some out ↔ ∃ b0 b1 b2 : Byte, out = [b0, b1, b2] ∧
      65536 * b0.toNat + 256 * b1.toNat + b2.toNat = 262144 * v0.toNat + 4096 * v1.toNat + 64 * v2.toNat + v3.toNat := by
  have h0 := v0.isLt
  rw [decodeGroup_full hp, Option.some.injEq]
  constructor
  · rintro rfl
    refine ⟨_, _, _, rfl, ?_⟩
    simp only [toNat_extractLsb'_eq_div, toNat_append_eq_add]
    omega
  · rintro ⟨b0, b1, b2, rfl, h⟩
    have hb0 := b0.isLt
    have hb1 := b1.isLt
    have hb2 := b2.isLt
    simp only [List.cons.injEq, and_true, ← BitVec.toNat_inj, toNat_extractLsb'_eq_div, toNat_append_eq_add]
    omega

/-- Three characters and a pad decode, as the last group and with zero padding bits, to the two bytes before those bits. -/
theorem decodeGroup_two_eq_some {v0 v1 v2 : BitVec 6} {out : Bytes} :
    decodeGroup p isLast (enc6 p v0) (enc6 p v1) (enc6 p v2) p.pad = some out ↔ isLast = true ∧ ∃ b0 b1 : Byte, out = [b0, b1] ∧
      4 * (256 * b0.toNat + b1.toNat) = 4096 * v0.toNat + 64 * v1.toNat + v2.toNat := by
  have h0 := v0.isLt
  have hzero : v2.extractLsb' 0 2 = 0#2 ↔ v2.toNat % 4 = 0 := extractLow_eq_zero_iff v2 2
  rw [decodeGroup_two hp, Option.ite_none_right_eq_some, Option.some.injEq, hzero]
  constructor
  · rintro ⟨⟨hlast, hpadding⟩, rfl⟩
    refine ⟨hlast, _, _, rfl, ?_⟩
    simp only [toNat_extractLsb'_eq_div, toNat_append_eq_add]
    omega
  · rintro ⟨hlast, b0, b1, rfl, h⟩
    have hb0 := b0.isLt
    have hb1 := b1.isLt
    refine ⟨⟨hlast, by omega⟩, ?_⟩
    simp only [List.cons.injEq, and_true, ← BitVec.toNat_inj, toNat_extractLsb'_eq_div, toNat_append_eq_add]
    omega

/-- Two characters and two pads decode likewise to the one byte. -/
theorem decodeGroup_one_eq_some {v0 v1 : BitVec 6} {out : Bytes} :
    decodeGroup p isLast (enc6 p v0) (enc6 p v1) p.pad p.pad = some out ↔ isLast = true ∧ ∃ b0 : Byte, out = [b0] ∧
      16 * b0.toNat = 64 * v0.toNat + v1.toNat := by
  have h0 := v0.isLt
  have hzero : v1.extractLsb' 0 4 = 0#4 ↔ v1.toNat % 16 = 0 := extractLow_eq_zero_iff v1 4
  rw [decodeGroup_one hp, Option.ite_none_right_eq_some, Option.some.injEq, hzero]
  constructor
  · rintro ⟨⟨hlast, hpadding⟩, rfl⟩
    refine ⟨hlast, _, rfl, ?_⟩
    simp only [toNat_extractLsb'_eq_div, toNat_append_eq_add]
    omega
  · rintro ⟨hlast, b0, rfl, h⟩
    have hb0 := b0.isLt
    refine ⟨⟨hlast, by omega⟩, ?_⟩
    simp only [List.cons.injEq, and_true, ← BitVec.toNat_inj, toNat_extractLsb'_eq_div, toNat_append_eq_add]
    omega

/-- The decoder takes no other group: the first two are characters, and then there are two pads, a character and a pad, or two
characters. -/
theorem decodeGroup_shape {c0 c1 c2 c3 : Byte} {out : Bytes} (h : decodeGroup p isLast c0 c1 c2 c3 = some out) :
    ∃ v0 v1, c0 = enc6 p v0 ∧ c1 = enc6 p v1 ∧ ((c2 = p.pad ∧ c3 = p.pad) ∨ ∃ v2, c2 = enc6 p v2 ∧
      (c3 = p.pad ∨ ∃ v3, c3 = enc6 p v3)) := by
  cases h0 : dec6 p c0 with
  | none => simp [decodeGroup, h0] at h
  | some v0 =>
  cases h1 : dec6 p c1 with
  | none => simp [decodeGroup, h0, h1] at h
  | some v1 =>
  refine ⟨v0, v1, (enc6_of_dec6 hp h0).symm, (enc6_of_dec6 hp h1).symm, ?_⟩
  by_cases hpad2 : c2 = p.pad
  · by_cases hpad3 : c3 = p.pad
    · exact .inl ⟨hpad2, hpad3⟩
    · simp [decodeGroup, h0, h1, hpad2, hpad3] at h
  · cases h2 : dec6 p c2 with
    | none => simp [decodeGroup, h0, h1, h2, hpad2] at h
    | some v2 =>
    refine .inr ⟨v2, (enc6_of_dec6 hp h2).symm, ?_⟩
    by_cases hpad3 : c3 = p.pad
    · exact .inl hpad3
    · cases h3 : dec6 p c3 with
      | none => simp [decodeGroup, h0, h1, h2, h3, hpad2, hpad3] at h
      | some v3 => exact .inr ⟨v3, (enc6_of_dec6 hp h3).symm⟩

/-- The decoder takes a group of text exactly for the bytes it stands for, and a tail only as the last group (R93, R94). -/
theorem decodeGroup_eq_some_iff {c0 c1 c2 c3 : Byte} {out : Bytes} : decodeGroup p isLast c0 c1 c2 c3 = some out ↔
    GroupText p out c0 c1 c2 c3 ∧ (out.length = 3 ∨ isLast = true) := by
  constructor
  · intro h
    obtain ⟨v0, v1, rfl, rfl, ⟨rfl, rfl⟩ | ⟨v2, rfl, rfl | ⟨v3, rfl⟩⟩⟩ := decodeGroup_shape hp h
    · obtain ⟨hlast, b0, rfl, hbits⟩ := (decodeGroup_one_eq_some hp).mp h
      exact ⟨.one hbits, .inr hlast⟩
    · obtain ⟨hlast, b0, b1, rfl, hbits⟩ := (decodeGroup_two_eq_some hp).mp h
      exact ⟨.two hbits, .inr hlast⟩
    · obtain ⟨b0, b1, b2, rfl, hbits⟩ := (decodeGroup_full_eq_some hp).mp h
      exact ⟨.full hbits, .inl rfl⟩
  · rintro ⟨hgroup, hlast⟩
    cases hgroup with
    | full hbits => exact (decodeGroup_full_eq_some hp).mpr ⟨_, _, _, rfl, hbits⟩
    | two hbits => exact (decodeGroup_two_eq_some hp).mpr ⟨by simpa using hlast, _, _, rfl, hbits⟩
    | one hbits => exact (decodeGroup_one_eq_some hp).mpr ⟨by simpa using hlast, _, rfl, hbits⟩

/-! ### The decoder inverts the encoder on canonical texts, and takes no other (R93, R95) -/

/-- One to three bytes that are all there is decode as the last group. -/
theorem decodeCanonical_b64Encode_tail {bytes : Bytes} (hlen : 1 ≤ bytes.length ∧ bytes.length ≤ 3) :
    decodeCanonical p (b64Encode p bytes) = some bytes := by
  obtain ⟨c0, c1, c2, c3, hgroup⟩ := GroupText.exists_of_bytes p bytes hlen
  have hfront := (decodeGroup_eq_some_iff hp (isLast := true)).mpr ⟨hgroup, .inr rfl⟩
  rw [hgroup.encode, decodeCanonical_cons4 (rest := []) hfront rfl, List.append_nil]

theorem decodeCanonical_b64Encode : ∀ bytes : Bytes, decodeCanonical p (b64Encode p bytes) = some bytes
  | [] => rfl
  | [b0] => decodeCanonical_b64Encode_tail hp (by simp)
  | [b0, b1] => decodeCanonical_b64Encode_tail hp (by simp)
  | b0 :: b1 :: b2 :: rest => by
    obtain ⟨c0, c1, c2, c3, hgroup⟩ := GroupText.exists_of_bytes p [b0, b1, b2] (by simp)
    have hfront := (decodeGroup_eq_some_iff hp (isLast := (b64Encode p rest).isEmpty)).mpr ⟨hgroup, .inl rfl⟩
    have hjoin : b64Encode p (b0 :: b1 :: b2 :: rest) = b64Encode p [b0, b1, b2] ++ b64Encode p rest :=
      b64Encode_append p (x := [b0, b1, b2]) (by simp)
    rw [hjoin, hgroup.encode]
    exact decodeCanonical_cons4 hfront (decodeCanonical_b64Encode rest)

theorem b64Encode_of_decodeCanonical : ∀ {t bytes : Bytes}, decodeCanonical p t = some bytes → b64Encode p bytes = t
  | [], bytes, h => by cases h; rfl
  | [_], _, h => by cases h
  | [_, _], _, h => by cases h
  | [_, _, _], _, h => by cases h
  | c0 :: c1 :: c2 :: c3 :: rest, bytes, h => by
    rw [decodeCanonical] at h
    split at h
    · rename_i front back hfront hback
      cases h
      obtain ⟨hgroup, hlen⟩ := (decodeGroup_eq_some_iff hp).mp hfront
      have hrest := b64Encode_of_decodeCanonical hback
      rcases hlen with hthree | hlast
      · rw [b64Encode_append p (by rw [hthree]), hgroup.encode, hrest]
        rfl
      · obtain rfl := List.isEmpty_iff.mp hlast
        obtain rfl := b64Encode_eq_nil.mp hrest
        rw [List.append_nil, hgroup.encode]
    · cases h

theorem isCanonical_iff (t : Bytes) : isCanonical p t = true ↔ ∃ bytes, b64Encode p bytes = t := by
  rw [isCanonical, Option.isSome_iff_exists]
  constructor
  · rintro ⟨bytes, h⟩
    exact ⟨bytes, b64Encode_of_decodeCanonical hp h⟩
  · rintro ⟨bytes, rfl⟩
    exact ⟨bytes, decodeCanonical_b64Encode hp bytes⟩

theorem b64Decode_b64Encode (bytes : Bytes) : b64Decode p (b64Encode p bytes) = bytes := by
  rw [b64Decode, decodeCanonical_b64Encode hp]

theorem b64Encode_injective {x y : Bytes} (h : b64Encode p x = b64Encode p y) : x = y := by
  rw [← b64Decode_b64Encode hp x, h, b64Decode_b64Encode hp]

end

/-- Settles O15: the decoder inverts the encoder in a legal build. -/
theorem b64decInvertsB64enc : Obligations.B64decInvertsB64enc := by
  intro s bytes hwf hidle
  rw [exec_b64dec_idle hidle, b64Decode_b64Encode (Config.b64_wf hwf)]
  rfl

end Sys2Proof.Machine

namespace Sys2Proof.Machine

/-! ### Where the pads stand (R92 (d)) -/

section
variable {p : Base64Params} (hp : p.wf = true)
include hp

theorem b64Encode_pad_iff : ∀ (bytes : Bytes) (k : Nat), (b64Encode p bytes)[k]? = some p.pad ↔
    (k + 1 = (b64Encode p bytes).length ∧ bytes.length % 3 ≠ 0) ∨ (k + 2 = (b64Encode p bytes).length ∧ bytes.length % 3 = 1)
  | [], k => by simp [b64Encode]
  | [b0], k => by
    have hne := enc6_ne_pad hp
    match k with
    | 0 => simp [b64Encode, encodeTail1, hne]
    | 1 => simp [b64Encode, encodeTail1, hne]
    | 2 => simp [b64Encode, encodeTail1]
    | 3 => simp [b64Encode, encodeTail1]
    | k + 4 => simp [b64Encode, encodeTail1]
  | [b0, b1], k => by
    have hne := enc6_ne_pad hp
    match k with
    | 0 => simp [b64Encode, encodeTail2, hne]
    | 1 => simp [b64Encode, encodeTail2, hne]
    | 2 => simp [b64Encode, encodeTail2, hne]
    | 3 => simp [b64Encode, encodeTail2]
    | k + 4 => simp [b64Encode, encodeTail2]
  | b0 :: b1 :: b2 :: rest, k => by
    have hne := enc6_ne_pad hp
    have hlen := length_b64Encode p rest
    rw [b64Length] at hlen
    have hjoin : b64Encode p (b0 :: b1 :: b2 :: rest) = encodeGroup3 p b0 b1 b2 ++ b64Encode p rest := rfl
    simp only [hjoin, encodeGroup3, List.cons_append, List.nil_append, List.length_cons]
    match k with
    | 0 => exact iff_of_false (by simp [hne]) (by omega)
    | 1 => exact iff_of_false (by simp [hne]) (by omega)
    | 2 => exact iff_of_false (by simp [hne]) (by omega)
    | 3 => exact iff_of_false (by simp [hne]) (by omega)
    | k + 4 =>
      rw [List.getElem?_cons_succ, List.getElem?_cons_succ, List.getElem?_cons_succ, List.getElem?_cons_succ,
        b64Encode_pad_iff rest k]
      omega

/-! ### Canonical texts by position (R93 (a) to (d)) -/

/-- A group that text follows stands for three bytes exactly when its four characters are of the alphabet. -/
theorem decodeGroup_inner_isSome {c0 c1 c2 c3 : Byte} : (decodeGroup p false c0 c1 c2 c3).isSome = true ↔
    (dec6 p c0).isSome = true ∧ (dec6 p c1).isSome = true ∧ (dec6 p c2).isSome = true ∧ (dec6 p c3).isSome = true := by
  have hpad := dec6_pad hp
  unfold decodeGroup
  cases dec6 p c0 with
  | none => simp
  | some v0 =>
  cases dec6 p c1 with
  | none => simp
  | some v1 =>
  by_cases h2 : c2 = p.pad
  · simp [h2, hpad]
  · by_cases h3 : c3 = p.pad
    · cases dec6 p c2 <;> simp [h2, h3, hpad]
    · cases dec6 p c2 <;> cases dec6 p c3 <;> simp [h2, h3]

/-- What R93 asks of the last group. -/
def LastGroup (p : Base64Params) (c0 c1 c2 c3 : Byte) : Prop :=
  (dec6 p c0).isSome = true ∧ (dec6 p c1).isSome = true ∧
  ((dec6 p c2).isSome = true ∨ (c2 = p.pad ∧ c3 = p.pad)) ∧ ((dec6 p c3).isSome = true ∨ c3 = p.pad) ∧
  (c3 = p.pad → ∀ v, dec6 p c2 = some v → v.toNat % 4 = 0) ∧
  (c2 = p.pad → c3 = p.pad → ∀ v, dec6 p c1 = some v → v.toNat % 16 = 0)

theorem decodeGroup_last_isSome {c0 c1 c2 c3 : Byte} :
    (decodeGroup p true c0 c1 c2 c3).isSome = true ↔ LastGroup p c0 c1 c2 c3 := by
  have hpad := dec6_pad hp
  have hlow2 (v : BitVec 6) : v.extractLsb' 0 2 = 0#2 ↔ v.toNat % 4 = 0 := extractLow_eq_zero_iff v 2
  have hlow4 (v : BitVec 6) : v.extractLsb' 0 4 = 0#4 ↔ v.toNat % 16 = 0 := extractLow_eq_zero_iff v 4
  unfold decodeGroup LastGroup
  cases dec6 p c0 with
  | none => simp
  | some v0 =>
  cases dec6 p c1 with
  | none => simp
  | some v1 =>
  by_cases h2 : c2 = p.pad
  · by_cases h3 : c3 = p.pad
    · simp [h2, h3, hpad, hlow4, apply_ite]
    · simp [h2, h3, hpad]
  · by_cases h3 : c3 = p.pad
    · cases dec6 p c2 <;> simp [h2, h3, hpad, hlow2, apply_ite]
    · cases dec6 p c2 <;> cases dec6 p c3 <;> simp [h2, h3]

end

/-- R93 (a) to (d) of one group. -/
theorem canonicalByPosition_four {p : Base64Params} {c0 c1 c2 c3 : Byte} :
    CanonicalByPosition p [c0, c1, c2, c3] ↔ LastGroup p c0 c1 c2 c3 := by
  constructor
  · rintro ⟨_, hchar, hpad1, hpad2⟩
    exact ⟨by simpa [byteAt] using hchar 0 (by simp), by simpa [byteAt] using hchar 1 (by simp), by simpa [byteAt] using hchar 2 (by simp),
      by simpa [byteAt] using hchar 3 (by simp), fun h3 v => hpad1 2 v rfl h3, fun h2 h3 v => hpad2 1 v rfl h2 h3⟩
  · rintro ⟨h0, h1, h2, h3, hpad1, hpad2⟩
    refine ⟨by simp, fun k hk => ?_, fun k v hk => ?_, fun k v hk => ?_⟩
    · match k, hk with
      | 0, _ => exact .inl h0
      | 1, _ => exact .inl h1
      | 2, _ => simpa [byteAt] using h2
      | 3, _ => simpa [byteAt] using h3
    · obtain rfl : k = 2 := by simpa using hk
      exact fun h3 => hpad1 h3 v
    · obtain rfl : k = 1 := by simpa using hk
      exact fun h2 h3 => hpad2 h2 h3 v

/-- R93 (a) to (d) of a text that goes on after its first group: that one has no pad. -/
theorem canonicalByPosition_cons4 {p : Base64Params} {c0 c1 c2 c3 : Byte} {rest : Bytes} (hne : rest ≠ []) :
    CanonicalByPosition p (c0 :: c1 :: c2 :: c3 :: rest) ↔
      ((dec6 p c0).isSome = true ∧ (dec6 p c1).isSome = true ∧ (dec6 p c2).isSome = true ∧ (dec6 p c3).isSome = true) ∧
      CanonicalByPosition p rest := by
  have hpos : 1 ≤ rest.length := List.length_pos_of_ne_nil hne
  have hlen : (c0 :: c1 :: c2 :: c3 :: rest).length = rest.length + 4 := rfl
  have hbyte (k : Nat) : byteAt (c0 :: c1 :: c2 :: c3 :: rest) (k + 4) = byteAt rest k := rfl
  rw [CanonicalByPosition, CanonicalByPosition, hlen]
  constructor
  · rintro ⟨hmod, hchar, hpad1, hpad2⟩
    have hfront (k : Nat) (hk : k < 4) : (dec6 p (byteAt (c0 :: c1 :: c2 :: c3 :: rest) k)).isSome = true :=
      (hchar k (by omega)).resolve_right (by omega)
    refine ⟨⟨hfront 0 (by omega), hfront 1 (by omega), hfront 2 (by omega), hfront 3 (by omega)⟩, by omega, fun k hk => ?_,
      fun k v hk => ?_, fun k v hk => ?_⟩
    · exact (hchar (k + 4) (by omega)).imp_right fun ⟨hc, hk'⟩ => ⟨hc, hk'.imp (by omega) fun ⟨h, hc'⟩ => ⟨by omega, hc'⟩⟩
    · exact hpad1 (k + 4) v (by omega)
    · exact hpad2 (k + 4) v (by omega)
  · rintro ⟨⟨h0, h1, h2, h3⟩, hmod, hchar, hpad1, hpad2⟩
    refine ⟨by omega, fun k hk => ?_, fun k v hk => ?_, fun k v hk => ?_⟩
    · match k, hk with
      | 0, _ => exact .inl h0
      | 1, _ => exact .inl h1
      | 2, _ => exact .inl h2
      | 3, _ => exact .inl h3
      | k + 4, hk =>
        exact (hchar k (by omega)).imp_right fun ⟨hc, hk'⟩ => ⟨hc, hk'.imp (by omega) fun ⟨h, hc'⟩ => ⟨by omega, hc'⟩⟩
    · obtain ⟨k, rfl⟩ : ∃ j, k = j + 4 := ⟨k - 4, by omega⟩
      exact hpad1 k v (by omega)
    · obtain ⟨k, rfl⟩ : ∃ j, k = j + 4 := ⟨k - 4, by omega⟩
      exact hpad2 k v (by omega)

/-- A text decodes group by group. -/
theorem decodeCanonical_isSome_cons4 {p : Base64Params} {c0 c1 c2 c3 : Byte} {rest : Bytes} :
    (decodeCanonical p (c0 :: c1 :: c2 :: c3 :: rest)).isSome = true ↔
      (decodeGroup p rest.isEmpty c0 c1 c2 c3).isSome = true ∧ (decodeCanonical p rest).isSome = true := by
  rw [decodeCanonical]
  cases decodeGroup p rest.isEmpty c0 c1 c2 c3 <;> cases decodeCanonical p rest <;> simp

/-- The decoder's own test is the test by position, group by group. -/
theorem isCanonical_iff_byPosition {p : Base64Params} (hp : p.wf = true) :
    ∀ t : Bytes, isCanonical p t = true ↔ CanonicalByPosition p t
  | [] => iff_of_true rfl ⟨rfl, by simp, by simp, by simp⟩
  | [_] => iff_of_false (by simp [isCanonical, decodeCanonical]) fun h => absurd h.1 (by simp)
  | [_, _] => iff_of_false (by simp [isCanonical, decodeCanonical]) fun h => absurd h.1 (by simp)
  | [_, _, _] => iff_of_false (by simp [isCanonical, decodeCanonical]) fun h => absurd h.1 (by simp)
  | [c0, c1, c2, c3] => by
    rw [isCanonical, decodeCanonical_isSome_cons4, canonicalByPosition_four, ← decodeGroup_last_isSome hp]
    exact and_iff_left rfl
  | c0 :: c1 :: c2 :: c3 :: c4 :: rest => by
    rw [isCanonical, decodeCanonical_isSome_cons4, canonicalByPosition_cons4 (List.cons_ne_nil c4 rest),
      ← isCanonical_iff_byPosition hp (c4 :: rest), List.isEmpty_cons, decodeGroup_inner_isSome hp, isCanonical]

/-- Settles O16: the decoder's test stands between the image of B64ENC and the test by position. -/
theorem canonicalTexts : Obligations.CanonicalTexts := by
  intro c t hwf
  have himage := isCanonical_iff (Config.b64_wf hwf) t
  exact ⟨himage.symm.trans (isCanonical_iff_byPosition (Config.b64_wf hwf) t), himage⟩

/-- Settles O14: the text is `b64Encode`'s, and its length, its injectivity, its bytes and its pads are lemmas about that. -/
theorem b64encTextProperties : Obligations.B64encTextProperties := by
  intro s bytes hwf hidle
  have hp := Config.b64_wf hwf
  refine ⟨b64Encode s.cfg.b64 bytes, exec_b64enc_idle hidle bytes, length_b64Encode _ _, fun other h => ?_,
    fun b hb => b64Encode_no_delimiter hp hb, b64Encode_pad_iff hp bytes⟩
  have hsame := Host.Outcome.next.inj ((exec_b64enc_idle hidle other).symm.trans h)
  have htext : Result.text (b64Encode s.cfg.b64 other) = .text (b64Encode s.cfg.b64 bytes) :=
    List.append_cancel_left (congrArg State.results hsame) |> List.singleton_inj.mp
  exact b64Encode_injective hp (Result.text.inj htext)

end Sys2Proof.Machine

namespace Sys2Proof.Machine

/-! ### The CRC bit by bit (R121) -/

theorem exec_crc32_idle {s : State} (h : s.op = .idle) (bytes : Bytes) :
    exec (.crc32 bytes) s = .next (s.respond (.crc (crc32 s.cfg.crc bytes))) := respondWith_idle h _

/-- Settles O18: the check value of the parameter set, evaluated. -/
theorem crc32CheckValue : Obligations.Crc32CheckValue := by
  intro s hidle hcrc
  have hvalue : crc32 .isoHdlc [0x31, 0x32, 0x33, 0x34, 0x35, 0x36, 0x37, 0x38, 0x39] = 0xCBF43926 := by decide +kernel
  rw [exec_crc32_idle hidle, hcrc, hvalue]
  rfl

/-- A word held against the register enters bit by bit: one shift takes its lowest bit in, and the others stand one place lower. -/
theorem crcShift_xor (p : CrcParams) (crc x : Word32) :
    crcShift p (crc ^^^ x) = crcBit p.polyReflected crc (x.getLsbD 0) ^^^ (x >>> 1) := by
  rw [crcShift, crcBit, BitVec.getLsbD_xor, BitVec.ushiftRight_xor_distrib]
  split_ifs
  · rw [BitVec.xor_assoc, BitVec.xor_assoc, BitVec.xor_comm (x >>> 1)]
  · rfl

/-- `n` shifts take in the word's `n` lowest bits, lowest first. -/
theorem crcShifts_xor (p : CrcParams) : ∀ (n : Nat) (crc x : Word32), crcShifts p n (crc ^^^ x) =
    ((List.range n).map x.getLsbD).foldl (crcBit p.polyReflected) crc ^^^ (x >>> n)
  | 0, crc, x => by simp [crcShifts]
  | n + 1, crc, x => by
    rw [crcShifts, crcShift_xor, crcShifts_xor p n, List.range_succ_eq_map, List.map_cons, List.foldl_cons, List.map_map,
      ← BitVec.shiftRight_add, Nat.add_comm 1 n]
    congr 2
    exact List.map_congr_left fun k _ => by simp [BitVec.getLsbD_ushiftRight, Nat.add_comm]

/-- The byte form takes the byte's eight bits in, bit 0 first, where the input is reflected. -/
theorem crcByte_eq_bits {p : CrcParams} (hp : p.reflectIn = true) (crc : Word32) (b : Byte) :
    crcByte p crc b = ((List.range 8).map b.getLsbD).foldl (crcBit p.polyReflected) crc := by
  have hgone : b.setWidth 32 >>> 8 = 0#32 := by
    ext i hi
    simp
  have hbits : (List.range 8).map (b.setWidth 32).getLsbD = (List.range 8).map b.getLsbD :=
    List.map_congr_left fun k hk => by
      have := List.mem_range.mp hk
      simp [show k < 32 by omega]
  rw [crcByte, crcInput, if_pos hp, crcShifts_xor, hgone, hbits, BitVec.xor_zero]

theorem crcRegister_eq_bits {p : CrcParams} (hp : p.reflectIn = true) (bytes : Bytes) (crc : Word32) :
    crcRegister p crc bytes = (bitsOf bytes).foldl (crcBit p.polyReflected) crc := by
  induction bytes generalizing crc with
  | nil => rfl
  | cons b rest ih =>
    rw [bitsOf, List.flatMap_cons, List.foldl_append, ← crcByte_eq_bits hp]
    exact ih _

/-- Settles O19: the register after the bytes is the register after their bits. -/
theorem crc32IsBitSerial : Obligations.Crc32IsBitSerial := by
  intro s bytes hidle hcrc
  rw [exec_crc32_idle hidle, hcrc, crc32, crcOutput, crcRegister_eq_bits rfl]
  rfl

/-! ### A changed byte changes the CRC (R124) -/

section
variable {p : CrcParams} (hp : p.polyReflected.getLsbD 31 = true)
include hp

/-- A byte taken in loses nothing of the register. -/
theorem crcByte_injective_register {x y : Word32} {b : Byte} (h : crcByte p x b = crcByte p y b) : x = y :=
  (BitVec.xor_left_inj _).mp (crcShifts_injective hp 8 h)

theorem crcRegister_injective_register (bytes : Bytes) : ∀ {x y : Word32}, crcRegister p x bytes = crcRegister p y bytes → x = y := by
  induction bytes with
  | nil => exact fun h => h
  | cons b rest ih => exact fun h => crcByte_injective_register hp (ih h)

/-- Nor of the byte. -/
theorem crcByte_injective_byte (hin : p.reflectIn = true) {crc : Word32} {a b : Byte} (h : crcByte p crc a = crcByte p crc b) :
    a = b := by
  simp only [crcByte, crcInput, hin, if_true] at h
  have hword := congrArg BitVec.toNat ((BitVec.xor_right_inj _).mp (crcShifts_injective hp 8 h))
  have ha := a.isLt
  have hb := b.isLt
  simp only [BitVec.toNat_setWidth] at hword
  exact BitVec.eq_of_toNat_eq (by omega)

end

/-- Byte strings that differ in one byte have different CRCs, for the parameter set of R120. -/
theorem crc32_injective_byte {before after : Bytes} {a b : Byte}
    (h : crc32 .isoHdlc (before ++ a :: after) = crc32 .isoHdlc (before ++ b :: after)) : a = b := by
  have hp : CrcParams.isoHdlc.polyReflected.getLsbD 31 = true := by decide
  have hregister : crcRegister .isoHdlc CrcParams.isoHdlc.init (before ++ a :: after) =
      crcRegister .isoHdlc CrcParams.isoHdlc.init (before ++ b :: after) := (BitVec.xor_left_inj _).mp h
  rw [crcRegister_append, crcRegister_append] at hregister
  exact crcByte_injective_byte hp rfl (crcRegister_injective_register hp after hregister)

/-- A field of four bytes is known by its value. -/
theorem readLe32_injective {x y : Bytes} (hx : x.length = 4) (hy : y.length = 4) (h : readLe32 x 0 = readLe32 y 0) : x = y := by
  match x, hx, y, hy with
  | [a0, a1, a2, a3], _, [b0, b1, b2, b3], _ =>
    have hsum := congrArg BitVec.toNat h
    rw [toNat_readLe32, toNat_readLe32] at hsum
    simp only [byteAt, List.getD_cons_zero, List.getD_cons_succ, Nat.zero_add] at hsum
    simp only [List.cons.injEq, and_true, ← BitVec.toNat_inj]
    have := a0.isLt
    have := a1.isLt
    have := a2.isLt
    have := b0.isLt
    have := b1.isLt
    have := b2.isLt
    omega

/-- Two byte strings that differ in one byte do not both pass: the byte is covered, and the CRCs differ, or it is in the trailer, and
the transmitted values do. -/
theorem checksumValid_byte_changed {c : Config} (hcrc : c.crc = .isoHdlc) {before after : Bytes} {a b : Byte} (hne : a ≠ b)
    (hvalid : checksumValid c (before ++ a :: after) = true) : checksumValid c (before ++ b :: after) = false := by
  rw [← Bool.not_eq_true]
  intro hvalid'
  by_cases hcovered : 4 ≤ after.length
  · obtain ⟨mid, trailer, htrailer, rfl⟩ : ∃ mid trailer : Bytes, trailer.length = 4 ∧ after = mid ++ trailer :=
      ⟨after.take (after.length - 4), after.drop (after.length - 4), by rw [List.length_drop]; omega, by simp⟩
    have hsplit (x : Byte) : before ++ x :: (mid ++ trailer) = (before ++ x :: mid) ++ trailer := by simp
    rw [hsplit, checksumValid_append htrailer, hcrc] at hvalid hvalid'
    exact hne (crc32_injective_byte (hvalid.trans hvalid'.symm))
  · have hlen : 4 ≤ (before ++ a :: after).length := by
      by_contra hshort
      rw [checksumValid_of_length_lt (Nat.lt_of_not_le hshort)] at hvalid
      cases hvalid
    rw [List.length_append, List.length_cons] at hlen
    obtain ⟨head, rest, hrest, rfl⟩ : ∃ head rest : Bytes, rest.length + 1 + after.length = 4 ∧ before = head ++ rest :=
      ⟨before.take (before.length + 1 + after.length - 4), before.drop (before.length + 1 + after.length - 4),
        by rw [List.length_drop]; omega, by simp⟩
    have htrailer (x : Byte) : (rest ++ x :: after).length = 4 := by
      rw [List.length_append, List.length_cons]
      omega
    rw [List.append_assoc, checksumValid_append (htrailer _)] at hvalid hvalid'
    have htrailers := readLe32_injective (htrailer a) (htrailer b) (hvalid.symm.trans hvalid')
    exact hne (List.cons.inj (List.append_cancel_left htrailers)).1

/-- Changing a bit changes one byte. -/
theorem flipBit_changes {s : Bytes} {k : Nat} (hk : k < 8 * s.length) : ∃ (before after : Bytes) (a b : Byte),
    a ≠ b ∧ s = before ++ a :: after ∧ flipBit s k = before ++ b :: after := by
  obtain ⟨before, a, after, hs, _, hmodify⟩ := List.exists_of_modify (· ^^^ (1#8 <<< (k % 8))) (show k / 8 < s.length by omega)
  refine ⟨before, after, a, _, fun h => ?_, hs, hmodify⟩
  have hmask : ∀ j : Fin 8, 1#8 <<< j.val ≠ 0#8 := by decide
  have hzero : 1#8 <<< (k % 8) = 0#8 := by
    rw [← BitVec.xor_right_inj a, BitVec.xor_zero]
    exact h.symm
  exact hmask ⟨k % 8, Nat.mod_lt k (by decide)⟩ hzero

theorem checksumValid_flipBit {c : Config} (hcrc : c.crc = .isoHdlc) {bytes : Bytes} {k : Nat} (hk : k < 8 * bytes.length)
    (hvalid : checksumValid c bytes = true) : checksumValid c (flipBit bytes k) = false := by
  obtain ⟨before, after, a, b, hne, hbytes, hflip⟩ := flipBit_changes hk
  rw [hflip]
  rw [hbytes] at hvalid
  exact checksumValid_byte_changed hcrc hne hvalid

/-- What CRC_CHECK answers is what the pure check says. -/
theorem exec_crcCheck_eq_iff {s : State} (hidle : s.op = .idle) (bytes : Bytes) (v : Bool) :
    exec (.crcCheck bytes) s = .next { s with results := s.results ++ [.checksumValid v] } ↔ checksumValid s.cfg bytes = v := by
  rw [exec_crcCheck_idle hidle]
  constructor
  · intro h
    have hresults := congrArg State.results (Host.Outcome.next.inj h)
    exact Result.checksumValid.inj (List.singleton_inj.mp (List.append_cancel_left hresults))
  · rintro rfl
    rfl

/-- Settles O21: a changed bit is a changed byte. -/
theorem singleBitDamageDetected : Obligations.SingleBitDamageDetected := by
  intro s bytes k hidle hcrc hk h
  rw [exec_crcCheck_eq_iff hidle] at h ⊢
  exact checksumValid_flipBit hcrc hk h

/-! ### SEG_DEC (R132, R134, R135) -/

theorem exec_segDec_valid {s : State} (hidle : s.op = .idle) {bytes : Bytes} (hvalid : segmentValid s.cfg bytes = true) :
    exec (.segDec bytes) s =
      .next (s.respond (.segment { checksumValid := true, fields := segmentFields s.cfg.byteOrder bytes })) := by
  rw [exec, execSegDec, atBoundary_idle hidle, if_pos hvalid]

theorem exec_segDec_failed {s : State} (hidle : s.op = .idle) {bytes : Bytes} (hfailed : segmentValid s.cfg bytes = false) :
    exec (.segDec bytes) s = .next { s with
      draws := s.draws + 1, results := s.results ++ [.segment { checksumValid := false, fields := s.anyFields }] } := by
  rw [exec, execSegDec, atBoundary_idle hidle, if_neg (by simp [hfailed])]
  rfl

/-- A string of 13 bytes or more with its CRC as trailer passes (R132). -/
theorem segmentValid_withTrailer {c : Config} {head : Bytes} (hlen : 9 ≤ head.length) : segmentValid c (withTrailer c head) = true := by
  rw [segmentValid, withTrailer_eq, Bool.and_eq_true_iff, decide_eq_true_eq, checksumValid_append rfl]
  refine ⟨by rw [List.length_append, length_le32]; omega, ?_⟩
  exact (readLe32_le32 _ []).symm

/-- The fields by position of a string laid out as R63 has it. -/
theorem segmentFields_eq (o : ByteOrder) (flags : Byte) (q k : Word32) {data trailer : Bytes} (htrailer : trailer.length = 4) :
    segmentFields o ([flags] ++ le32 q ++ le32 k ++ data ++ trailer) =
      { isAck := flags.getLsbD 0, sequenceNumber := q, ackNumber := k, data := data, dataLen := data.length } := by
  have hlen : ([flags] ++ le32 q ++ le32 k ++ data ++ trailer).length = 13 + data.length := by
    simp only [List.length_append, List.length_singleton, length_le32, htrailer]
    omega
  rw [segmentFields, hlen, readField_eq, readField_eq]
  congr 1
  · simpa using readLe32_between [flags] (le32 q) (le32 k ++ data ++ trailer) |>.trans (readLe32_le32 q _)
  · simpa using readLe32_between ([flags] ++ le32 q) (le32 k) (data ++ trailer) |>.trans (readLe32_le32 k _)
  · rw [List.append_assoc _ data trailer]
    exact slice_between ([flags] ++ le32 q ++ le32 k) data trailer rfl (by omega)
  · omega

/-- The covered bytes are the flag byte, the numbers and the data (R63). -/
theorem segmentHead_eq (o : ByteOrder) (isAck : Bool) (q k : Word32) (data : Bytes) :
    segmentHead o isAck q k data = [flagByte isAck] ++ le32 q ++ le32 k ++ data := by
  rw [segmentHead, writeField_eq, writeField_eq]

theorem flagByte_bit0 (isAck : Bool) : (flagByte isAck).getLsbD 0 = isAck := by cases isAck <;> rfl

theorem segmentFields_encodeSegment (c : Config) (isAck : Bool) (q k : Word32) (data : Bytes) :
    segmentFields c.byteOrder (encodeSegment c isAck q k data) =
      { isAck := isAck, sequenceNumber := q, ackNumber := k, data := data, dataLen := data.length } := by
  rw [encodeSegment, withTrailer_eq, segmentHead_eq, segmentFields_eq _ _ _ _ rfl, flagByte_bit0]

theorem segmentValid_encodeSegment (c : Config) (isAck : Bool) (q k : Word32) (data : Bytes) :
    segmentValid c (encodeSegment c isAck q k data) = true :=
  segmentValid_withTrailer (by rw [length_segmentHead]; omega)

/-- Settles O24: the check passes where the trailer is the CRC, and the fields are then read where they stand. -/
theorem segDecByPositionOrFailed : Obligations.SegDecByPositionOrFailed := by
  intro s hidle
  refine ⟨?_, fun bytes hbad => ⟨_, exec_segDec_failed hidle ?_⟩⟩
  · rintro flags q k data head rfl
    have hbit : flags.getLsbD 0 = decide (flags.toNat % 2 = 1) := by simp [BitVec.getLsbD, Nat.testBit_zero]
    have hvalid : segmentValid s.cfg (withTrailer s.cfg ([flags] ++ le32 q ++ le32 k ++ data)) = true :=
      segmentValid_withTrailer (by simp only [List.length_append, List.length_singleton, length_le32]; omega)
    rw [withTrailer_eq] at hvalid
    rw [exec_segDec_valid hidle hvalid, segmentFields_eq _ _ _ _ rfl, hbit]
    rfl
  · rw [segmentValid, Bool.and_eq_false_iff]
    exact hbad.imp (fun hshort => decide_eq_false (Nat.not_le.mpr hshort)) (exec_crcCheck_eq_iff hidle bytes false).mp

/-- Settles O25: the segment passes the check, and its fields are the operands. -/
theorem segDecInvertsSegEnc : Obligations.SegDecInvertsSegEnc := by
  intro s t isAck q k data out he hout
  obtain ⟨hidle, rfl⟩ := respondWith_next he
  obtain rfl : encodeSegment s.cfg isAck q k data = out :=
    Result.bytes.inj (List.singleton_inj.mp (List.append_cancel_left hout))
  have hop : (s.respond (.bytes (encodeSegment s.cfg isAck q k data))).op = .idle := hidle
  rw [exec_segDec_valid hop (segmentValid_encodeSegment s.cfg isAck q k data), State.respond_cfg, segmentFields_encodeSegment]
  rfl

/-- Settles O26: CRC_CHECK already fails on the damaged segment. -/
theorem segBitDamageDetected : Obligations.SegBitDamageDetected := by
  intro s isAck q k data bit hidle hcrc hbit
  refine ⟨_, exec_segDec_failed hidle ?_⟩
  rw [← length_encodeSegment s.cfg isAck q k data] at hbit
  have hvalid := (Bool.and_eq_true_iff.mp (segmentValid_encodeSegment s.cfg isAck q k data)).2
  rw [segmentValid, checksumValid_flipBit hcrc hbit hvalid, Bool.and_false]

end Sys2Proof.Machine

namespace Sys2Proof.Machine

/-! ### The polls of a PKT_RECV as a run of parser steps (R109) -/

/-- Whatever a parser step keeps, a run of parser steps keeps. -/
theorem parseBytes_induct (P : State → Prop) (hstep : ∀ (b : Byte) (s : State), P s → P (parserStep b s)) (bytes : Bytes) :
    ∀ s : State, P s → P (parseBytes bytes s) := by
  induction bytes with
  | nil => exact fun _ h => h
  | cons b rest ih => exact fun s h => ih _ (hstep b s h)

/-- A parser step never moves IDX beyond the buffer. -/
theorem parserStep_idx_le {b : Byte} {s : State} (h : s.idx ≤ s.cfg.rxCap) : (parserStep b s).idx ≤ s.cfg.rxCap := by
  rcases parserStep_cases b s with ⟨_, _, e⟩ | ⟨_, _, e⟩ | ⟨_, _, e⟩ | ⟨_, _, hroom, e⟩ | ⟨_, _, _, e⟩ | ⟨_, e⟩ <;> rw [e]
  case inl => exact Nat.zero_le _
  case inr.inr.inr.inl => exact hroom
  case inr.inr.inr.inr.inl => exact Nat.zero_le _
  all_goals exact h

/-- What a run of parser steps keeps. -/
theorem parseBytes_frame (bytes : Bytes) {s : State} (h : s.idx ≤ s.cfg.rxCap) : (parseBytes bytes s).cfg = s.cfg ∧
    (parseBytes bytes s).op = s.op ∧ (parseBytes bytes s).results = s.results ∧
    (parseBytes bytes s).idx ≤ s.cfg.rxCap :=
  parseBytes_induct (fun u => u.cfg = s.cfg ∧ u.op = s.op ∧ u.results = s.results ∧ u.idx ≤ s.cfg.rxCap)
    (fun b u ⟨hcfg, hop, hres, hidx⟩ => ⟨(parserStep_cfg b u).trans hcfg, (parserStep_op b u).trans hop,
      (parserStep_results b u).trans hres, hcfg ▸ parserStep_idx_le (hcfg.symm ▸ hidx)⟩)
    bytes s ⟨rfl, rfl, rfl, h⟩

/-- The state with a PKT_RECV in progress and these bytes waiting. -/
def State.receivingFrom (s : State) (timeout : Int) (t0 : Nat) (source : Bytes) : State :=
  { s with op := .receiving timeout t0, source := source }

section
variable {timeout : Int} {t0 : Nat}

/-- A poll takes the oldest byte, and whether the step it makes completes depends on the parser value alone. -/
theorem pollLoop_receivingFrom_cons (n : Nat) (s : State) (b : Byte) (rest : Bytes) :
    pollLoop (n + 1) (s.receivingFrom timeout t0 (b :: rest)) =
      pollLoop n (settle ((parserStep b s).receivingFrom timeout t0 rest)) := by
  have hpoll : pollLoop (n + 1) (s.receivingFrom timeout t0 (b :: rest)) =
      pollLoop n (settle (parserStep b (s.receivingFrom timeout t0 rest))) := pollLoop_byte rfl rfl
  rw [hpoll, State.receivingFrom, parserStep_with]
  rfl

/-- The polls take the `k` oldest bytes, one parser step each, up to the first that reaches PACKET_READY, which completes. -/
theorem pollLoop_parseBytes (n : Nat) : ∀ (s : State) (source : Bytes), s.pst ≠ .packetReady →
    ∃ k ≤ source.length, (∀ j < k, (parseBytes (source.take j) s).pst ≠ .packetReady) ∧
      ((1 ≤ k ∧ (parseBytes (source.take k) s).pst = .packetReady ∧
          pollLoop n (s.receivingFrom timeout t0 source) =
            complete ((parseBytes (source.take k) s).receivingFrom timeout t0 (source.drop k))) ∨
        ((parseBytes (source.take k) s).pst ≠ .packetReady ∧
          pollLoop n (s.receivingFrom timeout t0 source) =
            (parseBytes (source.take k) s).receivingFrom timeout t0 (source.drop k))) := by
  induction n with
  | zero => exact fun s source hp => ⟨0, Nat.zero_le _, nofun, .inr ⟨hp, rfl⟩⟩
  | succ n ih =>
    intro s source hp
    cases source with
    | nil => exact ⟨0, le_rfl, nofun, .inr ⟨hp, pollLoop_empty rfl⟩⟩
    | cons b rest =>
      rw [pollLoop_receivingFrom_cons]
      by_cases hready : (parserStep b s).pst = .packetReady
      · refine ⟨1, by simp, fun j hj => ?_, .inl ⟨le_rfl, hready, ?_⟩⟩
        · obtain rfl : j = 0 := by omega
          exact hp
        · rw [settle_ready (s := (parserStep b s).receivingFrom timeout t0 rest) hready, pollLoop_ended (by simp)]
          rfl
      · rw [settle_not_ready (s := (parserStep b s).receivingFrom timeout t0 rest) hready]
        obtain ⟨k, hk, hbefore, hend⟩ := ih (parserStep b s) rest hready
        refine ⟨k + 1, Nat.succ_le_succ hk, fun j hj => ?_, hend.imp_left fun h => ⟨Nat.le_add_left 1 k, h.2⟩⟩
        cases j with
        | zero => exact hp
        | succ j => exact hbefore j (Nat.lt_of_succ_lt_succ hj)

end

/-- PKT_RECV as it is issued, from all that waits. -/
theorem exec_pktRecv_receivingFrom {s : State} (h : s.op = .idle) (hp : s.pst ≠ .packetReady) (timeout : Int) :
    exec (.pktRecv timeout) s = .next (clockTest (pollLoop s.turn.polls (s.receivingFrom timeout s.clock s.source))) :=
  exec_pktRecv_idle h hp timeout

/-- Settles O37: the polls are a run of parser steps; one that completes is met by no clock test, and only a bounded wait times
out. -/
theorem pktRecvFollowsRelation : Obligations.PktRecvFollowsRelation := by
  intro s timeout hinv hidle
  obtain ⟨k, hk, hbefore, hend⟩ :=
    pollLoop_parseBytes (timeout := timeout) (t0 := s.clock) s.turn.polls s s.source hinv.notReady
  refine ⟨_, k, exec_pktRecv_receivingFrom hidle hinv.notReady timeout, hk, ?_⟩
  rintro p rfl
  refine ⟨hbefore, ?_⟩
  obtain ⟨hcfg, hop, hres, hidx⟩ := parseBytes_frame (s.source.take k) hinv.idxBound
  rw [hidle] at hop
  rcases hend with ⟨hpos, hready, hpoll⟩ | ⟨hnot, hpoll⟩
  · have htext : (parseBytes (s.source.take k) s).text.length ≤ s.cfg.rxCap := by rwa [State.text, Memory.length_readPrefix]
    refine .inl ⟨hpos, hready, length_b64Decode_le_rawCap htext, ?_⟩
    rw [hpoll, clockTest_idle (complete_op _)]
    simp [State.receivingFrom, complete, completePacket, State.finish, State.respond, State.clearParser, State.text, hcfg, hop, hres]
  · refine .inr ?_
    rw [hpoll]
    rcases clockTest_cases ((parseBytes (s.source.take k) s).receivingFrom timeout s.clock (s.source.drop k)) with
      e | ⟨timeout', t0', ho', _, hpassed, e⟩ <;> rw [e]
    · exact .inr ⟨hnot, rfl⟩
    · obtain ⟨rfl, rfl⟩ : timeout = timeout' ∧ s.clock = t0' := by
        simpa using InProgress.receiving.inj ho'
      refine .inl ⟨?_, hnot, ?_⟩
      · simp only [boundPassed, waitIsBounded, Bool.and_eq_true, decide_eq_true_eq] at hpassed
        exact hpassed.1
      · simp [State.receivingFrom, timeOut, timedOutPacket, State.finish, State.respond, State.text, hop, hres]

/-! ### A whole text taken in one turn (R113, R115) -/

section
variable {s : State} {timeout : Int} {t0 : Nat}

/-- The polls in READING take a text that fits and the END behind it, and complete the packet. -/
theorem pollLoop_completes {n : Nat} {more rest : Bytes} (ho : s.op = .receiving timeout t0) (hp : s.pst = .reading)
    (hwf : s.acc.wf = true) (hmore : ∀ b ∈ more, b ≠ endByte) (hfits : s.idx + more.length ≤ s.cfg.rxCap)
    (hsource : s.source = more ++ endByte :: rest) (hn : more.length < n) :
    ∃ acc : Memory,
      pollLoop n s = { s with
        op := .idle, source := rest, pst := .waitingForStart, idx := 0, acc := acc
        results := s.results ++ [.packet (completePacket s.cfg.b64 (s.text ++ more))] } ∧
      ∀ a, acc.read a = if s.idx ≤ a ∧ a < s.idx + more.length then byteAt more (a - s.idx) else s.acc.read a := by
  obtain ⟨acc, _, hpoll, htext, hread⟩ := pollLoop_text more (endByte :: rest) s timeout t0 n ho hp hwf hmore hfits hsource hn.le
  refine ⟨acc, ?_, hread⟩
  obtain ⟨m, hm⟩ : ∃ m, n - more.length = m + 1 := ⟨n - more.length - 1, by omega⟩
  have hend : parserStep endByte { s with acc := acc, idx := s.idx + more.length, source := rest } =
      { s with acc := acc, idx := s.idx + more.length, source := rest, pst := .packetReady } := parserStep_reading_end hp
  rw [hpoll, hm, pollLoop_byte (s := { s with acc := acc, idx := s.idx + more.length, source := endByte :: rest }) ho rfl, hend,
    settle_ready rfl, pollLoop_ended (by simp), ← htext]
  rfl

/-- A poll that finds START in WAITING_FOR_START. -/
theorem pollLoop_start (n : Nat) {tail : Bytes} (ho : s.op = .receiving timeout t0) (hp : s.pst = .waitingForStart)
    (hsource : s.source = startByte :: tail) :
    pollLoop (n + 1) s = pollLoop n { s with source := tail, pst := .reading, idx := 0 } := by
  have hstart : parserStep startByte { s with source := tail } = { s with source := tail, pst := .reading, idx := 0 } :=
    parserStep_waiting_start hp
  rw [pollLoop_byte ho hsource, hstart, settle_not_ready (by simp)]

/-- A poll that finds another byte there. -/
theorem pollLoop_other (n : Nat) {b : Byte} {tail : Bytes} (ho : s.op = .receiving timeout t0) (hp : s.pst = .waitingForStart)
    (hb : b ≠ startByte) (hsource : s.source = b :: tail) : pollLoop (n + 1) s = pollLoop n { s with source := tail } := by
  have hdiscard : parserStep b { s with source := tail } = { s with source := tail } := parserStep_waiting_discard hp hb
  rw [pollLoop_byte ho hsource, hdiscard, settle_not_ready (by simp [hp])]

/-- A poll in READING that finds the buffer full and a byte that is not END. -/
theorem pollLoop_full (n : Nat) {b : Byte} {tail : Bytes} (ho : s.op = .receiving timeout t0) (hp : s.pst = .reading)
    (hfull : s.cfg.rxCap ≤ s.idx) (hb : b ≠ endByte) (hsource : s.source = b :: tail) :
    pollLoop (n + 1) s = pollLoop n { s with source := tail, pst := .waitingForStart, idx := 0 } := by
  have habandon : parserStep b { s with source := tail } = { s with source := tail, pst := .waitingForStart, idx := 0 } :=
    parserStep_reading_full hp hb hfull
  rw [pollLoop_byte ho hsource, habandon, settle_not_ready (by simp)]

end

/-- Settles O42: the polls take the rest of the text and END, and no clock test follows. -/
theorem recvContinuesPartialText : Obligations.RecvContinuesPartialText := by
  intro s more rest timeout hinv hidle hp hmore hfits hsource hpolls
  rw [List.append_assoc] at hsource
  obtain ⟨acc, hpoll, hread⟩ := pollLoop_completes (s := { s with op := .receiving timeout s.clock }) rfl hp hinv.accWf hmore hfits
    hsource hpolls
  refine ⟨acc, ?_, hread⟩
  rw [exec_pktRecv_idle hidle hinv.notReady, hpoll, clockTest_idle rfl, ← hidle]
  rfl

/-- Settles O36: START, then the text and END as they were sent, and the text decodes to the payload. -/
theorem pktRecvReturnsSentPacket : Obligations.PktRecvReturnsSentPacket := by
  intro s b rest timeout hwf hidle hp hacc hfits hsource hpolls
  have hb64 := Config.b64_wf hwf
  have hlen : (b64Encode s.cfg.b64 b).length = 4 * ((b.length + 2) / 3) := length_b64Encode _ _
  obtain ⟨n, hn⟩ : ∃ n, s.turn.polls = n + 1 := ⟨s.turn.polls - 1, by omega⟩
  have hsource' : s.source = startByte :: (b64Encode s.cfg.b64 b ++ endByte :: rest) := by
    rw [hsource, List.append_assoc, List.append_assoc]
    rfl
  obtain ⟨acc, hpoll, hread⟩ := pollLoop_completes (n := n)
    (s := { s with
      op := .receiving timeout s.clock, source := b64Encode s.cfg.b64 b ++ endByte :: rest, pst := .reading, idx := 0 })
    rfl rfl hacc (fun c hc => (b64Encode_no_delimiter hb64 hc).2) (by simpa [hlen] using hfits) rfl (by omega)
  refine ⟨acc, ?_, fun a => ?_⟩
  · have hdecode : completePacket s.cfg.b64 (b64Encode s.cfg.b64 b) =
        { payload := b, byteCount := b.length, timedOut := false, wellFormed := true } := by
      rw [completePacket, b64Decode_b64Encode hb64]
    rw [exec_pktRecv_idle hidle (by simp [hp]), hn,
      pollLoop_start (s := { s with op := .receiving timeout s.clock }) n rfl hp hsource', hpoll, clockTest_idle rfl]
    simp [State.text, Memory.readPrefix, hdecode, hidle, hp]
  · simpa [hlen] using hread a

/-! ### A text longer than the buffer (R106, R114) -/

/-- The polls in WAITING_FOR_START discard bytes without START. -/
theorem pollLoop_discard {timeout : Int} {t0 : Nat} (tail : Bytes) (n : Nat) (noise : Bytes) : ∀ s : State,
    s.op = .receiving timeout t0 → s.pst = .waitingForStart → (∀ b ∈ noise, b ≠ startByte) → s.source = noise ++ tail →
    pollLoop (noise.length + n) s = pollLoop n { s with source := tail } := by
  induction noise with
  | nil =>
    intro s _ _ _ hsource
    rw [List.nil_append] at hsource
    rw [List.length_nil, Nat.zero_add, ← hsource]
  | cons b noise ih =>
    intro s ho hp hnoise hsource
    rw [List.cons_append] at hsource
    rw [List.length_cons, Nat.add_right_comm, pollLoop_other _ ho hp (hnoise b (by simp)) hsource,
      ih { s with source := noise ++ tail } ho hp (fun c hc => hnoise c (by simp [hc])) rfl]

/-- The polls that take START, a text longer than the buffer, and END: the buffer is filled, the next byte abandons the text, and what
is left of it is discarded. -/
theorem pollLoop_oversized {timeout : Int} {t0 : Nat} {s : State} {text rest : Bytes} (ho : s.op = .receiving timeout t0)
    (hp : s.pst = .waitingForStart) (hidx : s.idx = 0) (hwf : s.acc.wf = true) (hstart : ∀ b ∈ text, b ≠ startByte) (hend : ∀ b ∈ text, b ≠ endByte)
    (hlong : s.cfg.rxCap < text.length) (hsource : s.source = startByte :: (text ++ endByte :: rest)) :
    ∃ acc : Memory, acc.wf = true ∧
      (∀ a, acc.read a = if a < s.cfg.rxCap then byteAt text a else s.acc.read a) ∧
      pollLoop (2 + text.length) s = { s with source := rest, acc := acc } := by
  obtain ⟨stored, b, last, htext, hstored⟩ : ∃ (stored : Bytes) (b : Byte) (last : Bytes),
      text = stored ++ b :: last ∧ stored.length = s.cfg.rxCap :=
    ⟨text.take s.cfg.rxCap, text[s.cfg.rxCap], text.drop (s.cfg.rxCap + 1), by simp, by simp [hlong.le]⟩
  have hsplit : text ++ endByte :: rest = stored ++ (b :: ((last ++ [endByte]) ++ rest)) := by simp [htext]
  have hlen : 1 + text.length = stored.length + (1 + (last ++ [endByte]).length) := by simp [htext]; omega
  obtain ⟨acc, hacc, hpoll, _, hread⟩ := pollLoop_text stored (b :: ((last ++ [endByte]) ++ rest))
    { s with source := text ++ endByte :: rest, pst := .reading, idx := 0 } timeout t0 (1 + text.length) ho rfl hwf
    (fun c hc => hend c (by simp [htext, hc])) (by simp [hstored]) hsplit (by omega)
  refine ⟨acc, hacc, fun a => ?_, ?_⟩
  · have hprefix : a < s.cfg.rxCap → byteAt stored a = byteAt text a := fun ha => by
      simp [byteAt, htext, List.getElem?_append_left (hstored.symm ▸ ha)]
    rw [hread]
    simp only [Nat.zero_le, true_and, Nat.zero_add, Nat.sub_zero, hstored]
    split_ifs with ha
    · exact hprefix ha
    · rfl
  · have hnoise : ∀ c ∈ last ++ [endByte], c ≠ startByte := by
      intro c hc
      rcases List.mem_append.mp hc with hc | hc
      · exact hstart c (by simp [htext, hc])
      · rw [List.mem_singleton.mp hc]
        exact startByte_ne_endByte.symm
    have hleft : 1 + text.length - stored.length = (last ++ [endByte]).length + 0 + 1 := by omega
    have hcount : 2 + text.length = 1 + text.length + 1 := by omega
    calc pollLoop (2 + text.length) s
      _ = pollLoop (1 + text.length) { s with source := text ++ endByte :: rest, pst := .reading, idx := 0 } := by
        rw [hcount, pollLoop_start _ ho hp hsource]
      _ = pollLoop ((last ++ [endByte]).length + 0 + 1)
          { s with source := b :: ((last ++ [endByte]) ++ rest), pst := .reading, acc := acc, idx := 0 + stored.length } := by
        rw [hpoll, hleft]
      _ = pollLoop ((last ++ [endByte]).length + 0)
          { s with source := (last ++ [endByte]) ++ rest, pst := .waitingForStart, acc := acc, idx := 0 } :=
        pollLoop_full _ ho rfl (by simp [hstored]) (hend b (by simp [htext])) rfl
      _ = { s with source := rest, pst := .waitingForStart, acc := acc, idx := 0 } :=
        pollLoop_discard rest 0 (last ++ [endByte]) _ ho rfl hnoise rfl
      _ = { s with source := rest, acc := acc } := by rw [hp, hidx]

/-- The CLOCK read when a wait begins shows no time elapsed. -/
theorem elapsedSince_self (c : Config) (t0 : Nat) : elapsedSince c t0 t0 = 0 := by simp [elapsedSince]

/-- Settles O44: the packet's polls lead back to WAITING_FOR_START with the buffer filled, and the clock test that follows finds no
bound passed. -/
theorem oversizedPacketLeavesNoTrace : Obligations.OversizedPacketLeavesNoTrace := by
  intro s b rest timeout hinv hp hlong
  have hb64 := Config.b64_wf hinv.cfgWf
  have hidx := hinv.waitingEmpty hp
  have hready : s.pst ≠ .packetReady := hinv.notReady
  have hlen : (b64Encode s.cfg.b64 b).length = 4 * ((b.length + 2) / 3) := length_b64Encode _ _
  have hpacket : [0x00] ++ b64Encode s.cfg.b64 b ++ [0x04] ++ rest = startByte :: (b64Encode s.cfg.b64 b ++ endByte :: rest) := by
    simp [startByte, endByte]
  rw [hpacket, ← hlen]
  rw [← hlen] at hlong
  have hpolls {timeout : Int} {t0 : Nat} {u : State} (hcfg : u.cfg = s.cfg) (hacc : u.acc = s.acc) (hupst : u.pst = s.pst) (huidx : u.idx = s.idx)
      (ho : u.op = .receiving timeout t0) (hsource : u.source = startByte :: (b64Encode s.cfg.b64 b ++ endByte :: rest)) :=
    pollLoop_oversized (s := u) ho (hupst.trans hp) (huidx.trans hidx) (hacc ▸ hinv.accWf)
      (fun c hc => (b64Encode_no_delimiter hb64 hc).1) (fun c hc => (b64Encode_no_delimiter hb64 hc).2) (hcfg ▸ hlong) hsource
  obtain ⟨acc, haccWf, hread, _⟩ := hpolls (u := s.receivingFrom 0 0 _) rfl rfl rfl rfl rfl rfl
  refine ⟨acc, hread, fun hidle hsource hn hclock => ?issued, fun t0 ho hsource hn hpower hclock => ?running⟩
  case issued =>
    obtain ⟨acc', haccWf', hread', hpoll⟩ :=
      hpolls (timeout := timeout) (t0 := s.clock) (u := { s with op := .receiving timeout s.clock }) rfl rfl rfl rfl rfl hsource
    obtain rfl : acc' = acc := Memory.wfFrom_ext haccWf' haccWf fun a => (hread' a).trans (hread a).symm
    rw [exec_pktRecv_idle hidle hready, hn, hpoll, clockTest_running (timeout := timeout) (t0 := s.clock) rfl ?_]
    intro htests
    rw [elapsedSince_self]
    exact lt_or_gt_of_ne (hclock htests)
  case running =>
    obtain ⟨acc', haccWf', hread', hpoll⟩ := hpolls (timeout := timeout) (t0 := t0) (u := s.beginTurn) (State.beginTurn_cfg s)
      (State.beginTurn_acc s) (State.beginTurn_pst s) (State.beginTurn_idx s) (by rw [State.beginTurn_op, ho]) hsource
    rw [State.beginTurn_cfg, State.beginTurn_acc] at hread'
    obtain rfl : acc' = acc := Memory.wfFrom_ext haccWf' haccWf fun a => (hread' a).trans (hread a).symm
    have hop : s.beginTurn.op = .receiving timeout t0 := by rw [State.beginTurn_op, ho]
    rw [step_receiving ho hpower hready, hn, hpoll,
      clockTest_running (s := { s.beginTurn with source := rest, acc := acc' }) (timeout := timeout) (t0 := t0) hop ?_]
    intro htests
    show timeout < 0 ∨ elapsedSince s.beginTurn.cfg t0 s.beginTurn.clock < timeout
    rw [State.beginTurn_cfg]
    exact hclock htests

end Sys2Proof.Machine
